-- ==== Sys2Proof/Word.lean ====
section
/-!
DEFINITION. The word types of the core and the names the spec gives their widths (00_scope.md R8, R10, R11).
All values are unsigned; there is no signed arithmetic and no sign extension.
-/

namespace Sys2Proof

/-- A u8: a register's contents, a memory byte, an NN immediate (R10, R20, R32). -/
abbrev Byte := BitVec 8

/-- A u16: an instruction word, a cursor, a call-stack slot (R10, R24, R29, R33). -/
abbrev Word := BitVec 16

/-- A 4-bit register field, always below 16 (R13, R22). -/
abbrev Reg := BitVec 4

/-- A u12: the absolute address NNN of JP and CALL (R10, R84). -/
abbrev Addr12 := BitVec 12

end Sys2Proof
end

