-- ==== Sys2Proof/Config.lean ====
section
/-!
DEFINITION. The fixed parameters of the core, under the spec's names (00_scope.md R8).
The spec leaves no parameter open (R9) and no value free (93_implementation_defined.md), so this file holds constants only.
-/

namespace Sys2Proof.Config

/-- Memory capacity in bytes (R8, R50). -/
@[simp] abbrev MEM_SIZE : Nat := 4096

/-- Where programs are loaded and where pc and wc start (R8, R41, R64). -/
@[simp] abbrev PROG_ORIGIN : Nat := 0x200

/-- How many registers there are (R8, R20). -/
@[simp] abbrev NREGS : Nat := 16

/-- The flag register VF (R8, R21). -/
@[simp] abbrev FLAG_REG : Reg := 15#4

/-- How many call-stack slots there are (R8, R29). -/
@[simp] abbrev STACK_SLOTS : Nat := 16

/-- How many calls may be pending at once (R8, R30, R206). -/
@[simp] abbrev MAX_CALL_DEPTH : Nat := 16

/-- The length of every instruction in bytes (R8, R81). -/
@[simp] abbrev INSN_BYTES : Nat := 2

/-- The bytes from the program origin to the end of memory, the most that `load` takes (R60, R64). -/
@[simp] abbrev PROG_CAPACITY : Nat := MEM_SIZE - PROG_ORIGIN

end Sys2Proof.Config
end

