-- ==== Sys2Proof/Syntax.lean ====
section
/-!
DEFINITION. The instructions: one constructor per row of spec/opcode_table.json, each carrying the fields its
format names (30_encoding.md R82, R85, R92). A word of no row is no instruction: `Decoded.unrecognized` of
Sys2Proof/Decode.lean carries it.
-/

namespace Sys2Proof

/-- The nineteen instructions of 00_scope.md R3. `x` and `y` are the register fields, `nn` the byte immediate,
`nnn` the 12-bit absolute address. -/
inductive Instr where
  /-- HALT, 0x0000 (R120). -/
  | halt
  /-- RET, 0x00EE (R122). -/
  | ret
  /-- JP nnn, 0x1nnn (R123). -/
  | jp (nnn : Addr12)
  /-- CALL nnn, 0x2nnn (R125). -/
  | call (nnn : Addr12)
  /-- SE Vx, nn, 0x3xnn (R141). -/
  | seImm (x : Reg) (nn : Byte)
  /-- SNE Vx, nn, 0x4xnn (R142). -/
  | sneImm (x : Reg) (nn : Byte)
  /-- SE Vx, Vy, 0x5xy0 (R143). -/
  | seReg (x y : Reg)
  /-- LD Vx, nn, 0x6xnn (R161). -/
  | ldImm (x : Reg) (nn : Byte)
  /-- ADD Vx, nn, 0x7xnn (R162). -/
  | addImm (x : Reg) (nn : Byte)
  /-- LD Vx, Vy, 0x8xy0 (R164). -/
  | ldReg (x y : Reg)
  /-- OR Vx, Vy, 0x8xy1 (R166). -/
  | orReg (x y : Reg)
  /-- AND Vx, Vy, 0x8xy2 (R167). -/
  | andReg (x y : Reg)
  /-- XOR Vx, Vy, 0x8xy3 (R168). -/
  | xorReg (x y : Reg)
  /-- ADD Vx, Vy, 0x8xy4 (R172). -/
  | addReg (x y : Reg)
  /-- SUB Vx, Vy, 0x8xy5 (R174). -/
  | subReg (x y : Reg)
  /-- SHR Vx, 0x8xy6: `y` is decoded and ignored (R89, R176). -/
  | shr (x y : Reg)
  /-- SUBN Vx, Vy, 0x8xy7 (R177). -/
  | subnReg (x y : Reg)
  /-- SHL Vx, 0x8xyE: `y` is decoded and ignored (R89, R178). -/
  | shl (x y : Reg)
  /-- SNE Vx, Vy, 0x9xy0 (R144). -/
  | sneReg (x y : Reg)
  deriving DecidableEq, Repr

end Sys2Proof
end

