-- ==== Sys2Proof/WellFormed.lean ====
section
/-!
DEFINITION. What makes an operand and an instruction well formed, as checks on natural numbers (00_scope.md R10;
10_state.md R22; 30_encoding.md R83, R84), and the assembler's canonical form (30_encoding.md R93).
The operand types of `Instr` are the encoding's own field widths, so every `Instr` passes
(Sys2Proof/Laws/Encoding.lean proves it); the checks themselves refuse numbers that do not fit, and the host's
`set_register` uses the register check on an index that is no field.
-/

namespace Sys2Proof

/-- A register index an operation may use: strictly below 16 (R22). -/
def regIndexValid (i : Nat) : Bool := decide (i < Config.NREGS)

/-- A u8 immediate (R83). -/
def immediateValid (n : Nat) : Bool := decide (n < 2 ^ 8)

/-- A u12 address (R84). -/
def addressValid (n : Nat) : Bool := decide (n < 2 ^ 12)

/-- Every operand of the instruction fits its field (R22, R83, R84). -/
def Instr.wellFormed : Instr → Bool
  | .halt => true
  | .ret => true
  | .jp nnn => addressValid nnn.toNat
  | .call nnn => addressValid nnn.toNat
  | .seImm x nn => regIndexValid x.toNat && immediateValid nn.toNat
  | .sneImm x nn => regIndexValid x.toNat && immediateValid nn.toNat
  | .seReg x y => regIndexValid x.toNat && regIndexValid y.toNat
  | .ldImm x nn => regIndexValid x.toNat && immediateValid nn.toNat
  | .addImm x nn => regIndexValid x.toNat && immediateValid nn.toNat
  | .ldReg x y => regIndexValid x.toNat && regIndexValid y.toNat
  | .orReg x y => regIndexValid x.toNat && regIndexValid y.toNat
  | .andReg x y => regIndexValid x.toNat && regIndexValid y.toNat
  | .xorReg x y => regIndexValid x.toNat && regIndexValid y.toNat
  | .addReg x y => regIndexValid x.toNat && regIndexValid y.toNat
  | .subReg x y => regIndexValid x.toNat && regIndexValid y.toNat
  | .shr x y => regIndexValid x.toNat && regIndexValid y.toNat
  | .subnReg x y => regIndexValid x.toNat && regIndexValid y.toNat
  | .shl x y => regIndexValid x.toNat && regIndexValid y.toNat
  | .sneReg x y => regIndexValid x.toNat && regIndexValid y.toNat

/-- The instruction as an assembler writes it: `SHR Vx` and `SHL Vx` put Y = 0, every other spelling names all
its fields (R93). -/
def Instr.canonical : Instr → Instr
  | .halt => .halt
  | .ret => .ret
  | .jp nnn => .jp nnn
  | .call nnn => .call nnn
  | .seImm x nn => .seImm x nn
  | .sneImm x nn => .sneImm x nn
  | .seReg x y => .seReg x y
  | .ldImm x nn => .ldImm x nn
  | .addImm x nn => .addImm x nn
  | .ldReg x y => .ldReg x y
  | .orReg x y => .orReg x y
  | .andReg x y => .andReg x y
  | .xorReg x y => .xorReg x y
  | .addReg x y => .addReg x y
  | .subReg x y => .subReg x y
  | .shr x _ => .shr x 0#4
  | .subnReg x y => .subnReg x y
  | .shl x _ => .shl x 0#4
  | .sneReg x y => .sneReg x y

/-- Whether disassembling and reassembling gives the same word back, exact only for Y = 0 in a shift (R93). -/
def Instr.isCanonical (i : Instr) : Bool := decide (i.canonical = i)

end Sys2Proof
end

