-- ==== Sys2Proof/Decode.lean ====
section
/-!
DEFINITION. From bits to instructions and back (30_encoding.md): byte order, the fields of a word, the decoder,
total on every word and on every list of bytes, the encoder, the opcode table as data, and the spelling of a word.
-/

namespace Sys2Proof

/-! ## Bytes and words (20_memory.md R52, R53) -/

/-- w[7:0], the byte at the lower address. -/
def lowByte (w : Word) : Byte := w.extractLsb' 0 8

/-- w[15:8], the byte at the higher address. -/
def highByte (w : Word) : Byte := w.extractLsb' 8 8

/-- The word whose lower-addressed byte is `lo`: `(hi << 8) | lo`, little-endian always (R52, R54). -/
def wordOfBytes (lo hi : Byte) : Word := hi ++ lo

/-! ## Fields (R13, R80, R83, R84) -/

/-- C = w[15:12], the instruction family. -/
def fieldC (w : Word) : BitVec 4 := w.extractLsb' 12 4

/-- X = w[11:8]. -/
def fieldX (w : Word) : Reg := w.extractLsb' 8 4

/-- Y = w[7:4]. -/
def fieldY (w : Word) : Reg := w.extractLsb' 4 4

/-- D = w[3:0]. -/
def fieldD (w : Word) : BitVec 4 := w.extractLsb' 0 4

/-- `(y << 4) | d`, used as is (R83). -/
def immediate8 (y d : BitVec 4) : Byte := y ++ d

/-- `(x << 8) | (y << 4) | d` (R84). -/
def immediate12 (x y d : BitVec 4) : Addr12 := x ++ y ++ d

/-- NN = w[7:0]. -/
def fieldNN (w : Word) : Byte := immediate8 (fieldY w) (fieldD w)

/-- NNN = w[11:0]. -/
def fieldNNN (w : Word) : Addr12 := immediate12 (fieldX w) (fieldY w) (fieldD w)

/-! ## The decoder (R86 to R92) -/

/-- What a word decodes to: an instruction with its operands, or UNRECOGNIZED carrying the word (R86, R92). -/
inductive Decoded where
  /-- The word is in a row of the table. -/
  | instr (i : Instr)
  /-- The word is in no row: illegal and fatal (R90, R91). -/
  | unrecognized (w : Word)
  deriving DecidableEq, Repr

/-- The C = 0 family: HALT and RET alone (R87). -/
def decodeFix (w : Word) : Decoded :=
  if w = 0x0000#16 then .instr .halt
  else if w = 0x00EE#16 then .instr .ret
  else .unrecognized w

/-- The C = 5 and C = 9 families: a register skip, only when D = 0 (R88). -/
def decodeSkip (skip : Reg → Reg → Instr) (w : Word) : Decoded :=
  if fieldD w = 0x0#4 then .instr (skip (fieldX w) (fieldY w)) else .unrecognized w

/-- The C = 8 family, selected by D (R89). -/
def decodeAlu (w : Word) : Decoded :=
  match (fieldD w).toNat with
  | 0x0 => .instr (.ldReg (fieldX w) (fieldY w))
  | 0x1 => .instr (.orReg (fieldX w) (fieldY w))
  | 0x2 => .instr (.andReg (fieldX w) (fieldY w))
  | 0x3 => .instr (.xorReg (fieldX w) (fieldY w))
  | 0x4 => .instr (.addReg (fieldX w) (fieldY w))
  | 0x5 => .instr (.subReg (fieldX w) (fieldY w))
  | 0x6 => .instr (.shr (fieldX w) (fieldY w))
  | 0x7 => .instr (.subnReg (fieldX w) (fieldY w))
  | 0xE => .instr (.shl (fieldX w) (fieldY w))
  | _ => .unrecognized w

/-- Decode one instruction word by its family nibble C, total on every u16 (R87). C = 0xA to 0xF hold nothing. -/
def decode (w : Word) : Decoded :=
  match (fieldC w).toNat with
  | 0x0 => decodeFix w
  | 0x1 => .instr (.jp (fieldNNN w))
  | 0x2 => .instr (.call (fieldNNN w))
  | 0x3 => .instr (.seImm (fieldX w) (fieldNN w))
  | 0x4 => .instr (.sneImm (fieldX w) (fieldNN w))
  | 0x5 => decodeSkip .seReg w
  | 0x6 => .instr (.ldImm (fieldX w) (fieldNN w))
  | 0x7 => .instr (.addImm (fieldX w) (fieldNN w))
  | 0x8 => decodeAlu w
  | 0x9 => decodeSkip .sneReg w
  | _ => .unrecognized w

/-- What a list of bytes decodes to: the first word's meaning with the bytes after it, or too few bytes. -/
inductive BytesDecoded where
  /-- The first two bytes are a word; the next instruction starts 2 bytes later (R81). -/
  | decoded (d : Decoded) (rest : List Byte)
  /-- Fewer than two bytes are left, so there is no instruction word. -/
  | truncated (left : List Byte)
  deriving DecidableEq, Repr

/-- Decode the instruction at the head of a list of bytes in address order (R80, R81). -/
def decodeBytes : List Byte → BytesDecoded
  | lo :: hi :: rest => .decoded (decode (wordOfBytes lo hi)) rest
  | [lo] => .truncated [lo]
  | [] => .truncated []

/-! ## The encoder (R82, R93) -/

/-- Format ADDR: C[15:12] NNN[11:0]. -/
def encodeAddr (c : BitVec 4) (nnn : Addr12) : Word := c ++ nnn

/-- Format RIMM: C[15:12] X[11:8] NN[7:0]. -/
def encodeRImm (c : BitVec 4) (x : Reg) (nn : Byte) : Word := c ++ x ++ nn

/-- Format RR: C[15:12] X[11:8] Y[7:4] D[3:0]. -/
def encodeRR (c : BitVec 4) (x y : Reg) (d : BitVec 4) : Word := c ++ x ++ y ++ d

/-- The word of an instruction, every field kept (R82, R86). -/
def encode : Instr → Word
  | .halt => 0x0000#16
  | .ret => 0x00EE#16
  | .jp nnn => encodeAddr 0x1#4 nnn
  | .call nnn => encodeAddr 0x2#4 nnn
  | .seImm x nn => encodeRImm 0x3#4 x nn
  | .sneImm x nn => encodeRImm 0x4#4 x nn
  | .seReg x y => encodeRR 0x5#4 x y 0x0#4
  | .ldImm x nn => encodeRImm 0x6#4 x nn
  | .addImm x nn => encodeRImm 0x7#4 x nn
  | .ldReg x y => encodeRR 0x8#4 x y 0x0#4
  | .orReg x y => encodeRR 0x8#4 x y 0x1#4
  | .andReg x y => encodeRR 0x8#4 x y 0x2#4
  | .xorReg x y => encodeRR 0x8#4 x y 0x3#4
  | .addReg x y => encodeRR 0x8#4 x y 0x4#4
  | .subReg x y => encodeRR 0x8#4 x y 0x5#4
  | .shr x y => encodeRR 0x8#4 x y 0x6#4
  | .subnReg x y => encodeRR 0x8#4 x y 0x7#4
  | .shl x y => encodeRR 0x8#4 x y 0xE#4
  | .sneReg x y => encodeRR 0x9#4 x y 0x0#4

/-- The instruction's bytes in address order, low byte first (R53, R80). -/
def encodeBytes (i : Instr) : List Byte := [lowByte (encode i), highByte (encode i)]

/-- The word an assembler writes for the instruction's spelling, with Y = 0 in a shift (R93). -/
def assemble (i : Instr) : Word := encode i.canonical

/-! ## The opcode table as data (R86) -/

/-- One row of the opcode map: the word matches when `w & mask == pattern`, and is then `build w`. -/
structure OpcodeRow where
  mnemonic : String
  pattern : Word
  mask : Word
  build : Word → Instr

/-- `w & mask == pattern` (R86). -/
def OpcodeRow.matchesWord (r : OpcodeRow) (w : Word) : Bool := w &&& r.mask == r.pattern

/-- The rows of R86 and of spec/opcode_table.json, in that order. -/
def opcodeTable : List OpcodeRow :=
  [ ⟨"HALT", 0x0000#16, 0xFFFF#16, fun _ => .halt⟩,
    ⟨"RET", 0x00EE#16, 0xFFFF#16, fun _ => .ret⟩,
    ⟨"JP", 0x1000#16, 0xF000#16, fun w => .jp (fieldNNN w)⟩,
    ⟨"CALL", 0x2000#16, 0xF000#16, fun w => .call (fieldNNN w)⟩,
    ⟨"SE", 0x3000#16, 0xF000#16, fun w => .seImm (fieldX w) (fieldNN w)⟩,
    ⟨"SNE", 0x4000#16, 0xF000#16, fun w => .sneImm (fieldX w) (fieldNN w)⟩,
    ⟨"SE", 0x5000#16, 0xF00F#16, fun w => .seReg (fieldX w) (fieldY w)⟩,
    ⟨"LD", 0x6000#16, 0xF000#16, fun w => .ldImm (fieldX w) (fieldNN w)⟩,
    ⟨"ADD", 0x7000#16, 0xF000#16, fun w => .addImm (fieldX w) (fieldNN w)⟩,
    ⟨"LD", 0x8000#16, 0xF00F#16, fun w => .ldReg (fieldX w) (fieldY w)⟩,
    ⟨"OR", 0x8001#16, 0xF00F#16, fun w => .orReg (fieldX w) (fieldY w)⟩,
    ⟨"AND", 0x8002#16, 0xF00F#16, fun w => .andReg (fieldX w) (fieldY w)⟩,
    ⟨"XOR", 0x8003#16, 0xF00F#16, fun w => .xorReg (fieldX w) (fieldY w)⟩,
    ⟨"ADD", 0x8004#16, 0xF00F#16, fun w => .addReg (fieldX w) (fieldY w)⟩,
    ⟨"SUB", 0x8005#16, 0xF00F#16, fun w => .subReg (fieldX w) (fieldY w)⟩,
    ⟨"SHR", 0x8006#16, 0xF00F#16, fun w => .shr (fieldX w) (fieldY w)⟩,
    ⟨"SUBN", 0x8007#16, 0xF00F#16, fun w => .subnReg (fieldX w) (fieldY w)⟩,
    ⟨"SHL", 0x800E#16, 0xF00F#16, fun w => .shl (fieldX w) (fieldY w)⟩,
    ⟨"SNE", 0x9000#16, 0xF00F#16, fun w => .sneReg (fieldX w) (fieldY w)⟩ ]

/-! ## Reading a table word -/

/-- The instruction the decoder reads from an instruction whose bits are `w`, bit 0 the least significant bit of
its one word. The word is laid out in memory order, low byte first, and given to `decodeBytes`; bits at and above
`nbits` count as 0. -/
def decodeTableWord (nbits w : Nat) : Option Instr :=
  let v : Word := BitVec.ofNat 16 (w % 2 ^ nbits)
  match decodeBytes [lowByte v, highByte v] with
  | .decoded (.instr i) _ => some i
  | .decoded (.unrecognized _) _ => none
  | .truncated _ => none

/-! ## Spelling (R16, R93) -/

/-- One upper-case hexadecimal digit. -/
def hexDigit (d : BitVec 4) : String :=
  if d = 0x0#4 then "0" else if d = 0x1#4 then "1" else if d = 0x2#4 then "2" else if d = 0x3#4 then "3"
  else if d = 0x4#4 then "4" else if d = 0x5#4 then "5" else if d = 0x6#4 then "6" else if d = 0x7#4 then "7"
  else if d = 0x8#4 then "8" else if d = 0x9#4 then "9" else if d = 0xA#4 then "A" else if d = 0xB#4 then "B"
  else if d = 0xC#4 then "C" else if d = 0xD#4 then "D" else if d = 0xE#4 then "E" else "F"

/-- `V0` to `VF` (R16). -/
def spellReg (x : Reg) : String := "V" ++ hexDigit x

/-- A byte immediate, `0x` and two digits. DEDUCED from the spec's listings (95_test_vectors.md); log entry 5. -/
def spellByte (nn : Byte) : String := "0x" ++ hexDigit (nn.extractLsb' 4 4) ++ hexDigit (nn.extractLsb' 0 4)

/-- An address, `0x` and three digits. DEDUCED as `spellByte` is; log entry 5. -/
def spellAddr (nnn : Addr12) : String :=
  "0x" ++ hexDigit (nnn.extractLsb' 8 4) ++ hexDigit (nnn.extractLsb' 4 4) ++ hexDigit (nnn.extractLsb' 0 4)

/-- A raw word, `0x` and four digits. DEDUCED as `spellByte` is; log entry 5. -/
def spellWord (w : Word) : String :=
  "0x" ++ hexDigit (fieldC w) ++ hexDigit (fieldX w) ++ hexDigit (fieldY w) ++ hexDigit (fieldD w)

/-- A mnemonic with two register operands, destination first. -/
def spellRR (m : String) (x y : Reg) : String := m ++ " " ++ spellReg x ++ ", " ++ spellReg y

/-- A mnemonic with a register and a byte immediate. -/
def spellRImm (m : String) (x : Reg) (nn : Byte) : String := m ++ " " ++ spellReg x ++ ", " ++ spellByte nn

/-- The instruction as R16 and R93 spell it; a shift drops Y. -/
def Instr.spell : Instr → String
  | .halt => "HALT"
  | .ret => "RET"
  | .jp nnn => "JP " ++ spellAddr nnn
  | .call nnn => "CALL " ++ spellAddr nnn
  | .seImm x nn => spellRImm "SE" x nn
  | .sneImm x nn => spellRImm "SNE" x nn
  | .seReg x y => spellRR "SE" x y
  | .ldImm x nn => spellRImm "LD" x nn
  | .addImm x nn => spellRImm "ADD" x nn
  | .ldReg x y => spellRR "LD" x y
  | .orReg x y => spellRR "OR" x y
  | .andReg x y => spellRR "AND" x y
  | .xorReg x y => spellRR "XOR" x y
  | .addReg x y => spellRR "ADD" x y
  | .subReg x y => spellRR "SUB" x y
  | .shr x _ => "SHR " ++ spellReg x
  | .subnReg x y => spellRR "SUBN" x y
  | .shl x _ => "SHL " ++ spellReg x
  | .sneReg x y => spellRR "SNE" x y

/-- What a disassembler prints for a word: its instruction's spelling, or `.word` and the raw word (R93). -/
def disassemble (w : Word) : String :=
  match decode w with
  | .instr i => i.spell
  | .unrecognized v => ".word " ++ spellWord v

end Sys2Proof
end

