-- ==== Sys2Proof/Machine/State.lean ====
section
/-!
DEFINITION. The state of the core as plain data: the tuple `(mem, x, pc, wc, sp, stack, state, fault)` of
10_state.md, its value after reset, and the reasons a step of the model can stop.
-/

namespace Sys2Proof.Machine

/-- Memory as a list of (address, byte) pairs; an address not listed reads as 0, the reset value (R41, R66).
The canonical form is `Memory.wf` (Sys2Proof/Machine/Ops.lean). -/
abbrev Memory := List Host.Cell

/-- The run state (R36). -/
inductive RunState where
  /-- Constructed or reset, and `run` never invoked. -/
  | ready
  /-- Inside `run`, stepping. -/
  | running
  /-- The last `run` ended by HALT. -/
  | halted
  /-- A fault was raised; terminal until reset. -/
  | faulted
  deriving DecidableEq, Repr

/-- The fault kinds and "none" (R201, R213); their numbers are `FaultCode.number` (Sys2Proof/Machine/Ops.lean). -/
inductive FaultCode where
  /-- Code 0, the reset value. -/
  | noFault
  /-- Code 1, raised by the step at decode (R202). -/
  | unrecognizedInstruction
  /-- Code 2, raised by the host's `set_register` (R203). -/
  | registerIndexOutOfRange
  /-- Code 3, raised by a fetch and by the host's writes (R204). -/
  | addressOutOfBounds
  /-- Code 4, raised by RET (R205). -/
  | stackUnderflow
  /-- Code 5, raised by CALL (R206). -/
  | stackOverflow
  deriving DecidableEq, Repr

/-- The fault latch (R38): the code, the address the fault concerns, the instruction word when there was one. -/
structure FaultLatch where
  code : FaultCode
  addr : Word
  word : Word
  deriving DecidableEq, Repr

/-- The core's whole state (10_state.md). -/
structure State where
  /-- `mem[0]`..`mem[4095]` (R32, R50). -/
  mem : Memory
  /-- `x[0]`..`x[15]`, V0 to VF; register 15 is also the flag register (R20, R21). -/
  x : Vector Byte 16
  /-- The program counter, the source's read cursor (R24). -/
  pc : Word
  /-- The write cursor, where the next `set_opcode` lands (R33). -/
  wc : Word
  /-- The stack pointer, 0 to 16 inclusive: how many calls are pending (R30). -/
  sp : Fin 17
  /-- `stack[0]`..`stack[15]` (R29). -/
  stack : Vector Word 16
  /-- The run state (R36). -/
  state : RunState
  /-- The fault latch (R38). -/
  fault : FaultLatch
  deriving DecidableEq, Repr

/-- The latch with nothing recorded (R41). -/
def FaultLatch.cleared : FaultLatch := ⟨.noFault, 0#16, 0#16⟩

/-- The core right after `new()`: every component at the value of R41. -/
def State.reset : State where
  mem := []
  x := Vector.replicate 16 0#8
  pc := 0x200#16
  wc := 0x200#16
  sp := 0
  stack := Vector.replicate 16 0#16
  state := .ready
  fault := FaultLatch.cleared

/-- Why no step happens (R100: "In READY, HALTED and FAULTED no step happens"). Raised by `step` alone, never by an
instruction: every fault of the spec is a next state with `state = faulted` and the latch written. All three are
safe: the model stops where the core takes no step either (log entry 1). -/
inductive Fault where
  /-- Raised by `step` in READY: the host has not invoked `run`. Safe. -/
  | notStarted
  /-- Raised by `step` in HALTED: the last `run` ended by HALT; only the host's `run` or reset goes on. Safe. -/
  | halted
  /-- Raised by `step` in FAULTED: a fault is latched; only reset goes on. Safe. -/
  | faulted
  deriving DecidableEq, Repr

/-- No instruction is refused; the type has the one constructor the host's interface asks for. -/
inductive Refusal where
  /-- Raised by an arm of `exec` that has no meaning yet. No arm raises it. Safe: the model stops. -/
  | notModelled (mnemonic : String)
  deriving DecidableEq, Repr

end Sys2Proof.Machine
end

