-- ==== Sys2Proof/Machine/Ops.lean ====
section
/-!
DEFINITION. The named operations every instruction and every host operation is written with: memory, registers,
the program counter, the call stack, raising a fault (the one shared operation of fault entry, R214; nothing
returns from a fault, R217), and the fetch.
-/

namespace Sys2Proof.Machine

/-- What an instruction's meaning answers. -/
abbrev Result := Host.Outcome State Fault Refusal

/-! ## Memory (20_memory.md) -/

/-- One byte. An address that is not listed reads as 0 (R41, R66). -/
def Memory.read : Memory → Nat → Byte
  | [], _ => 0#8
  | (k, v) :: m, a => if k = a then v else Memory.read m a

/-- Memory with nothing listed at `a`. -/
def Memory.erase (m : Memory) (a : Nat) : Memory := m.filter (fun c => c.1 != a)

/-- Memory with `(a, v)` listed before the first greater address. -/
def Memory.insert : Memory → Nat → Byte → Memory
  | [], a, v => [(a, v)]
  | (k, w) :: m, a, v => if a < k then (a, v) :: (k, w) :: m else (k, w) :: Memory.insert m a v

/-- `mem[a] <- v`. Writing 0, which an unlisted address reads as, leaves nothing listed. -/
def Memory.write (m : Memory) (a : Nat) (v : Byte) : Memory :=
  if v = 0#8 then m.erase a else (m.erase a).insert a v

/-- The canonical form: addresses strictly rising, inside the 4096 bytes, and no entry that holds 0. -/
def Memory.wf (m : Memory) : Bool :=
  decide (m.Pairwise (fun p q => p.1 < q.1)) && m.all (fun c => c.2 != 0#8 && decide (c.1 < Config.MEM_SIZE))

/-- `MemRead(addr, 1)`: no instruction or host operation uses it (R14, R63). `none` is AddressOutOfBounds. -/
def memRead1 (m : Memory) (a : Nat) : Option Byte :=
  if a < Config.MEM_SIZE then some (m.read a) else none

/-- `MemRead(addr, 2)`: `(mem[a+1] << 8) | mem[a]`, at any address, even or odd (R14, R52, R55, R57).
`none` is AddressOutOfBounds, with nothing read. -/
def memRead2 (m : Memory) (a : Nat) : Option Word :=
  if a + 1 < Config.MEM_SIZE then some (wordOfBytes (m.read a) (m.read (a + 1))) else none

/-- The two byte writes of `MemWrite(addr, 2, v)`: low byte first, at the lower address (R14, R53). -/
def Memory.write2 (m : Memory) (a : Nat) (v : Word) : Memory :=
  (m.write a (lowByte v)).write (a + 1) (highByte v)

/-- `MemWrite(addr, 2, v)`. `none` is AddressOutOfBounds, with neither byte written (R56). -/
def memWrite2 (m : Memory) (a : Nat) (v : Word) : Option Memory :=
  if a + 1 < Config.MEM_SIZE then some (m.write2 a v) else none

/-- `mem[a + k] <- bytes[k]`, one byte at a time in address order (R60, R61, R63). -/
def Memory.writeBytes : Memory → Nat → List Byte → Memory
  | m, _, [] => m
  | m, a, b :: bs => Memory.writeBytes (m.write a b) (a + 1) bs

/-! ## Registers (R20 to R23) -/

/-- `x[r]`. -/
def State.reg (s : State) (r : Reg) : Byte := s.x[r.toNat]'r.isLt

/-- `x[r] <- v`. Register 15 is one register, flag or not (R21). -/
def State.setReg (s : State) (r : Reg) (v : Byte) : State := { s with x := s.x.set r.toNat v r.isLt }

/-! ## Program counter (R24 to R27) -/

/-- `pc <- target`. -/
def State.setPc (s : State) (target : Word) : State := { s with pc := target }

/-- `pc <- pc + 2`: the fetch's own advance, and a taken skip's (R101, R140). -/
def State.advancePc (s : State) : State := s.setPc (s.pc + 2#16)

/-- While an instruction executes, pc holds its address plus 2 (R24); so this is the instruction's address, the
`a` a fault of the instruction records. DEDUCED; log entry 3. -/
def State.insnAddr (s : State) : Word := s.pc - 2#16

/-! ## Call stack (R29, R30) -/

/-- `push(address, pointer)`: stores `address` at slot `pointer`. -/
def stackPush (stack : Vector Word 16) (address : Word) (pointer : Fin 16) : Vector Word 16 :=
  stack.set pointer.val address pointer.isLt

/-- `pop(pointer)`: returns the value at slot `pointer` and clears that slot to zero. -/
def stackPop (stack : Vector Word 16) (pointer : Fin 16) : Word × Vector Word 16 :=
  (stack[pointer.val]'pointer.isLt, stack.set pointer.val 0#16 pointer.isLt)

/-! ## Faults (60_exceptions.md) -/

/-- The number held in `fault.code` (R213). -/
def FaultCode.number : FaultCode → Nat
  | .noFault => 0
  | .unrecognizedInstruction => 1
  | .registerIndexOutOfRange => 2
  | .addressOutOfBounds => 3
  | .stackUnderflow => 4
  | .stackOverflow => 5

/-- Fault entry (R214): the latch is written and `state <- FAULTED`; nothing else is saved and control goes
nowhere. -/
def State.raise (s : State) (code : FaultCode) (addr word : Word) : State :=
  { s with fault := ⟨code, addr, word⟩, state := .faulted }

/-! ## Fetch (R101, R102) -/

/-- The word at pc, or `none` where pc > 4094. -/
def State.fetchWord (s : State) : Option Word := memRead2 s.mem s.pc.toNat

/-- The fetch fault: AddressOutOfBounds with addr = pc and word = 0, pc unchanged (R102). -/
def State.raiseFetch (s : State) : State := s.raise .addressOutOfBounds s.pc 0#16

/-- The decode fault at the instruction address `s.pc`: pc has advanced, addr is the word's address (R202, R216). -/
def State.raiseUnrecognized (s : State) (w : Word) : State :=
  s.advancePc.raise .unrecognizedInstruction s.pc w

/-- `s` ready to run `w` at its very next step: `w` stored at pc, low byte first, and RUNNING. Where pc is above
4094, so that no word can be fetched there, pc is the program origin. A test harness's placing, not an operation of
the core; log entry 2. -/
def State.placeWord (s : State) (w : Word) : State :=
  let t := if s.pc.toNat + 1 < Config.MEM_SIZE then s else s.setPc (BitVec.ofNat 16 Config.PROG_ORIGIN)
  { t with mem := t.mem.write2 t.pc.toNat w, state := .running }

end Sys2Proof.Machine
end

