-- ==== Sys2Proof/Machine/Operands.lean ====
section
/-!
DEFINITION. The operand forms: register, 8-bit immediate, 12-bit absolute address (30_encoding.md R83 to R85).
There is no memory operand, indirect register or indexed form.
-/

namespace Sys2Proof.Machine

/-- The second operand of a skip, a load or an operation: Vy, or NN. -/
inductive Source where
  | reg (y : Reg)
  | imm (nn : Byte)
  deriving DecidableEq, Repr

/-- The operand's value in the state as the previous statement left it (R12, R103). An immediate is used as is,
neither scaled nor extended (R83). -/
def State.source (s : State) : Source → Byte
  | .reg y => s.reg y
  | .imm nn => nn

/-- `zext_16(NNN)`: an absolute byte address, neither pc-relative nor scaled (R84, R121). -/
def jumpTarget (nnn : Addr12) : Word := nnn.zeroExtend 16

end Sys2Proof.Machine
end

