-- ==== Sys2Proof/Machine/Control.lean ====
section
/-!
DEFINITION. Control transfer: HALT, RET, JP, CALL (41_control.md). Each meaning is the `Execute` arm, run after the
fetch, so pc = a + 2 (R101). A fault of the instruction is a next state that has entered the fault (R214).
-/

namespace Sys2Proof.Machine

/-- HALT (R120): `state <- HALTED`; pc stays a + 2. -/
def execHalt (s : State) : Result := .next { s with state := .halted }

/-- RET (R122): StackUnderflow when sp = 0, checked before any write (R205); else sp goes down, pc takes the popped
slot and the slot is cleared. -/
def execRet (s : State) : Result :=
  if h : s.sp.val = 0 then .next (s.raise .stackUnderflow s.insnAddr (encode .ret))
  else
    let pointer : Fin 16 := ⟨s.sp.val - 1, by omega⟩
    let popped := stackPop s.stack pointer
    .next { s with sp := pointer.castSucc, pc := popped.1, stack := popped.2 }

/-- JP nnn (R123): `pc <- zext_16(NNN)`. -/
def execJp (nnn : Addr12) (s : State) : Result := .next (s.setPc (jumpTarget nnn))

/-- CALL nnn (R125): StackOverflow when sp = 16, checked before the push (R206); else the return address pc = a + 2
is pushed at slot sp, sp goes up and pc takes NNN. -/
def execCall (nnn : Addr12) (s : State) : Result :=
  if h : s.sp.val < Config.MAX_CALL_DEPTH then
    let pointer : Fin 16 := ⟨s.sp.val, h⟩
    .next { s with stack := stackPush s.stack s.pc pointer, sp := pointer.succ, pc := jumpTarget nnn }
  else .next (s.raise .stackOverflow s.insnAddr (encode (.call nnn)))

end Sys2Proof.Machine
end

