-- ==== Sys2Proof/Machine/Flags.lean ====
section
/-!
DEFINITION. The flag computations of the arithmetic and shift instructions and the write to VF
(10_state.md R28; 43_load_alu.md R172 to R178). Sums are exact naturals (R10).
-/

namespace Sys2Proof.Machine

/-- A flag value: 1 or 0. -/
def flagByte (b : Bool) : Byte := if b then 1#8 else 0#8

/-- `x[15] <- f` (R21, R28). -/
def State.setFlag (s : State) (f : Byte) : State := s.setReg Config.FLAG_REG f

/-- ADD Vx, Vy overflows: the exact sum is above 255 (R172). -/
def addOverflows (vx vy : Byte) : Bool := decide (vx.toNat + vy.toNat > 255)

/-- SUB's "no borrow": Vx >= Vy (R174). -/
def noBorrow (vx vy : Byte) : Bool := decide (vy.toNat ≤ vx.toNat)

/-- SUBN would go below zero: Vy < Vx (R177). -/
def reverseBorrows (vx vy : Byte) : Bool := decide (vy.toNat < vx.toNat)

/-- The bit SHR shifts out: Vx & 1 (R176). -/
def shiftedOutRight (v : Byte) : Byte := v &&& 1#8

/-- The bit SHL shifts out: (Vx >> 7) & 1 (R178). -/
def shiftedOutLeft (v : Byte) : Byte := (v >>> 7) &&& 1#8

end Sys2Proof.Machine
end

