-- ==== Sys2Proof/Machine/LoadAlu.lean ====
section
/-!
DEFINITION. Register loads and arithmetic-logic: LD, ADD, OR, AND, XOR, SUB, SHR, SUBN, SHL (43_load_alu.md).
The statements run in the order the spec writes them and each reads what the previous one left (R12, R160), which is
what decides the result where register 15 is an operand or the destination.
-/

namespace Sys2Proof.Machine

/-- `x[X] <- op(x[X], operand)`, with no flag written (R160, R165). -/
def combineInto (op : Byte → Byte → Byte) (x : Reg) (src : Source) (s : State) : Result :=
  .next (s.setReg x (op (s.reg x) (s.source src)))

/-- `x[X] <- operand`. -/
def loadInto (x : Reg) (src : Source) (s : State) : Result := .next (s.setReg x (s.source src))

/-- LD Vx, nn (R161). -/
def execLdImm (x : Reg) (nn : Byte) (s : State) : Result := loadInto x (.imm nn) s

/-- ADD Vx, nn (R162): wraps modulo 256, no flag. -/
def execAddImm (x : Reg) (nn : Byte) (s : State) : Result := combineInto (· + ·) x (.imm nn) s

/-- LD Vx, Vy (R164). -/
def execLdReg (x y : Reg) (s : State) : Result := loadInto x (.reg y) s

/-- OR Vx, Vy (R166). -/
def execOrReg (x y : Reg) (s : State) : Result := combineInto (· ||| ·) x (.reg y) s

/-- AND Vx, Vy (R167). -/
def execAndReg (x y : Reg) (s : State) : Result := combineInto (· &&& ·) x (.reg y) s

/-- XOR Vx, Vy (R168). -/
def execXorReg (x y : Reg) (s : State) : Result := combineInto (· ^^^ ·) x (.reg y) s

/-- ADD Vx, Vy (R172): on overflow VF <- 1 and Vx is not written; otherwise Vx takes the sum and VF is not
written. -/
def execAddReg (x y : Reg) (s : State) : Result :=
  if addOverflows (s.reg x) (s.reg y) then .next (s.setFlag 1#8)
  else .next (s.setReg x (s.reg x + s.reg y))

/-- SUB Vx, Vy (R174): the flag is computed on the values before the instruction, the difference wraps, VF is
written last. -/
def execSubReg (x y : Reg) (s : State) : Result :=
  let f := flagByte (noBorrow (s.reg x) (s.reg y))
  let s1 := s.setReg x (s.reg x - s.reg y)
  .next (s1.setFlag f)

/-- SHR Vx (R176): VF is written first, then Vx is read again and shifted. Y is not read (R89, R175). -/
def execShr (x _y : Reg) (s : State) : Result :=
  let s1 := s.setFlag (shiftedOutRight (s.reg x))
  .next (s1.setReg x (s1.reg x >>> 1))

/-- SUBN Vx, Vy (R177): VF = 1 and Vx kept when Vy < Vx; otherwise Vx takes Vy - Vx, then VF <- 0. -/
def execSubnReg (x y : Reg) (s : State) : Result :=
  if reverseBorrows (s.reg x) (s.reg y) then .next (s.setFlag 1#8)
  else .next ((s.setReg x (s.reg y - s.reg x)).setFlag 0#8)

/-- SHL Vx (R178): VF is written first, then Vx is read again and shifted, keeping 8 bits. Y is not read (R89,
R175). -/
def execShl (x _y : Reg) (s : State) : Result :=
  let s1 := s.setFlag (shiftedOutLeft (s.reg x))
  .next (s1.setReg x (s1.reg x <<< 1))

end Sys2Proof.Machine
end

