-- ==== Sys2Proof/Machine/Skip.lean ====
section
/-!
DEFINITION. Conditional skips: SE and SNE, register-immediate and register-register (42_skip.md). A skip's only
effect is on pc (R146).
-/

namespace Sys2Proof.Machine

/-- Skip (R140): when the condition holds, pc moves 2 bytes beyond the fetch's own advance; the skipped word is not
fetched, decoded or checked, and no bound is checked. -/
def skipIf (condition : Bool) (s : State) : Result := .next (if condition then s.advancePc else s)

/-- Whether Vx equals the second operand, compared as u8 (R141). -/
def operandsEqual (x : Reg) (src : Source) (s : State) : Bool := decide (s.reg x = s.source src)

/-- SE Vx, nn (R141). -/
def execSeImm (x : Reg) (nn : Byte) (s : State) : Result := skipIf (operandsEqual x (.imm nn) s) s

/-- SNE Vx, nn (R142). -/
def execSneImm (x : Reg) (nn : Byte) (s : State) : Result := skipIf (!operandsEqual x (.imm nn) s) s

/-- SE Vx, Vy (R143). -/
def execSeReg (x y : Reg) (s : State) : Result := skipIf (operandsEqual x (.reg y) s) s

/-- SNE Vx, Vy (R144). -/
def execSneReg (x y : Reg) (s : State) : Result := skipIf (!operandsEqual x (.reg y) s) s

end Sys2Proof.Machine
end

