-- ==== Sys2Proof/Machine/Step.lean ====
section
/-!
DEFINITION. One step of the core (40_dispatch.md R100, R101): fetch, decode, execute, checked in that order (R215).
-/

namespace Sys2Proof.Machine

/-- One step. Enabled only in RUNNING; elsewhere no step happens, which the model answers with a named fault of its
own (R100; log entry 1). -/
def step (s : State) : Host.Outcome State Fault Refusal :=
  match s.state with
  | .ready => .fault .notStarted
  | .halted => .fault .halted
  | .faulted => .fault .faulted
  | .running =>
    match s.fetchWord with
    | none => .next s.raiseFetch
    | some w =>
      match decode w with
      | .instr i => exec i s.advancePc
      | .unrecognized v => .next (s.raiseUnrecognized v)

/-- `s` with the instruction of `nbits` bits `w` stored where `step` fetches, and RUNNING, so that the very next
step runs it (log entry 2). -/
def State.withFetchWord (s : State) (nbits w : Nat) : State := s.placeWord (BitVec.ofNat 16 (w % 2 ^ nbits))

end Sys2Proof.Machine
end

