-- ==== Sys2Proof/Machine/HostOps.lean ====
section
/-!
DEFINITION. The host's operations on the core (20_memory.md R58 to R62; 70_reset_and_hazards.md R240 to R247), each
one atomic transition (R7). They are no part of `step`: the host acts only while the core is not RUNNING (R245).
`run` is in Sys2Proof/Machine/Run.lean.
-/

namespace Sys2Proof.Machine

/-- The host operations other than `run` and observation (R247). -/
inductive HostOp where
  /-- `new()`: reset (R240). -/
  | new
  /-- `load(bytes)` (R60). -/
  | load (bytes : List Byte)
  /-- `set_opcode(w)` (R58). -/
  | setOpcode (w : Word)
  /-- `write_into(w, a)` (R59). -/
  | writeInto (w a : Word)
  /-- `set_register(i, v)`: the index is any natural, since it is no instruction field (R243). -/
  | setRegister (i : Nat) (v : Byte)
  deriving DecidableEq, Repr

/-- What a host operation returns (R209, R247). -/
inductive HostOutcome where
  /-- Accepted and done. -/
  | ok (s : State)
  /-- The operation raised a fault: its error result, and the state with the fault entered. -/
  | err (f : FaultLatch) (s : State)
  /-- Not accepted in this run state: no effect (R211, R245). -/
  | refused
  deriving DecidableEq, Repr

/-- Where writes are accepted: READY and HALTED (R247). -/
def acceptsWrites (s : State) : Bool :=
  match s.state with
  | .ready => true
  | .halted => true
  | .running => false
  | .faulted => false

/-- A host operation's fault: fault entry on the state as it was before the operation (R62, R214, R216). -/
def hostRaise (s : State) (code : FaultCode) (addr word : Word) : HostOutcome :=
  let t := s.raise code addr word
  .err t.fault t

/-- `new()` (R240): everything to its reset value; accepted in READY, HALTED and FAULTED. -/
def hostNew (s : State) : HostOutcome :=
  match s.state with
  | .running => .refused
  | .ready => .ok State.reset
  | .halted => .ok State.reset
  | .faulted => .ok State.reset

/-- `set_opcode(w)` (R58): writes at wc and advances wc by 2. -/
def hostSetOpcode (w : Word) (s : State) : HostOutcome :=
  if acceptsWrites s then
    match memWrite2 s.mem s.wc.toNat w with
    | none => hostRaise s .addressOutOfBounds s.wc w
    | some m => .ok { s with mem := m, wc := s.wc + 2#16 }
  else .refused

/-- `write_into(w, a)` (R59): writes at `a` and moves neither cursor. -/
def hostWriteInto (w a : Word) (s : State) : HostOutcome :=
  if acceptsWrites s then
    match memWrite2 s.mem a.toNat w with
    | none => hostRaise s .addressOutOfBounds a w
    | some m => .ok { s with mem := m }
  else .refused

/-- `load(bytes)` (R60, R61): a raw copy to the program origin, or a fault before anything is written. -/
def hostLoad (bytes : List Byte) (s : State) : HostOutcome :=
  if acceptsWrites s then
    if bytes.length > Config.PROG_CAPACITY then hostRaise s .addressOutOfBounds 0x1000#16 0#16
    else .ok { s with mem := s.mem.writeBytes Config.PROG_ORIGIN bytes }
  else .refused

/-- `set_register(i, v)` (R243), with the strict check `i < 16` (R22). -/
def hostSetRegister (i : Nat) (v : Byte) (s : State) : HostOutcome :=
  if acceptsWrites s then
    if regIndexValid i then .ok (s.setReg (BitVec.ofNat 4 i) v)
    else hostRaise s .registerIndexOutOfRange (BitVec.ofNat 16 i) (v.zeroExtend 16)
  else .refused

/-- One host operation. -/
def hostDo (op : HostOp) (s : State) : HostOutcome :=
  match op with
  | .new => hostNew s
  | .load bytes => hostLoad bytes s
  | .setOpcode w => hostSetOpcode w s
  | .writeInto w a => hostWriteInto w a s
  | .setRegister i v => hostSetRegister i v s

/-- Observation (R244): the whole state while not RUNNING, and nothing while RUNNING. -/
def observe (s : State) : Option State :=
  match s.state with
  | .running => none
  | .ready => some s
  | .halted => some s
  | .faulted => some s

/-- `run` begins (R37, R107): RUNNING from READY or HALTED, with pc and all else kept. `none` is no start: FAULTED
returns the latched fault with no step, and in RUNNING the host has no move. -/
def startRun (s : State) : Option State :=
  match s.state with
  | .ready => some { s with state := .running }
  | .halted => some { s with state := .running }
  | .running => none
  | .faulted => none

end Sys2Proof.Machine
end

