-- ==== Sys2Proof/Machine/Run.lean ====
section
/-!
DEFINITION. `run()` (40_dispatch.md R107 to R109): the step repeated until HALTED or FAULTED. A run need not end
(R108), so the model runs it under fuel, which is the host's bound and no fault of the core.
-/

namespace Sys2Proof.Machine

/-- How a run under fuel comes out. -/
inductive RunOutcome where
  /-- HALTED: `run` returns Ok. -/
  | ok (s : State)
  /-- FAULTED: `run` returns the latched fault as its single error (R209). -/
  | err (f : FaultLatch) (s : State)
  /-- The fuel is spent and the core is still RUNNING; it reports no fault (R108). -/
  | outOfFuel (s : State)
  /-- Not accepted: the core is RUNNING already, and the host has no move (R245). -/
  | refused
  deriving DecidableEq, Repr

/-- The loop of R107: after each step, return when the state is no longer RUNNING. The states that `step` stops in
are the ones the loop has returned in already, so its other answers give the state back unchanged. -/
def runLoop : Nat → State → RunOutcome
  | 0, s => .outOfFuel s
  | k + 1, s =>
    match step s with
    | .next t =>
      match t.state with
      | .halted => .ok t
      | .faulted => .err t.fault t
      | .running => runLoop k t
      | .ready => .outOfFuel t
    | .fault _ => .outOfFuel s
    | .refused _ => .outOfFuel s

/-- `run()` with `fuel` steps at most. FAULTED returns the latched fault with no step (R107, R211). -/
def run (fuel : Nat) (s : State) : RunOutcome :=
  match s.state with
  | .faulted => .err s.fault s
  | .running => .refused
  | .ready => runLoop fuel { s with state := .running }
  | .halted => runLoop fuel { s with state := .running }

end Sys2Proof.Machine
end

