-- ==== Sys2Proof/Safety.lean ====
section
/-!
DEFINITION. What claims are stated with: the invariant of the states that runs reach, the events of the core and the
states they reach, the run-state table, what a step or an instruction leaves unchanged, and which registers an
instruction reads and writes.
-/

namespace Sys2Proof.Safety

open Sys2Proof.Machine

/-! ## The invariant -/

/-- Slots at index ≥ sp hold 0 (R31). -/
def DeadSlotsZero (s : State) : Prop := ∀ k : Fin 16, s.sp.val ≤ k.val → s.stack[k.val]'k.isLt = 0#16

/-- Every slot holds at most 4096, the greatest return address a CALL pushes (R27, R122). -/
def SlotsBounded (s : State) : Prop := ∀ k : Fin 16, (s.stack[k.val]'k.isLt).toNat ≤ 4096

/-- The latch holds a fault exactly in FAULTED, and holds zeros when it holds none (R38, R41, R214). -/
def LatchAgrees (s : State) : Prop :=
  (s.state = .faulted → s.fault.code ≠ .noFault) ∧ (s.state ≠ .faulted → s.fault = FaultLatch.cleared)

/-- What holds in every state that host operations and steps reach from reset. -/
structure Inv (s : State) : Prop where
  /-- Memory is in its canonical form, inside the 4096 bytes. -/
  mem_wf : s.mem.wf = true
  /-- pc stays in 0..4098 (R27). -/
  pc_le : s.pc.toNat ≤ 4098
  /-- wc stays in 0..4096 (R35). -/
  wc_le : s.wc.toNat ≤ 4096
  /-- Dead slots are zero (R31). -/
  dead : DeadSlotsZero s
  /-- Return addresses are at most 4096 (R27). -/
  slots : SlotsBounded s
  /-- The latch and the run state agree (R38). -/
  latch : LatchAgrees s

/-! ## Events -/

/-- What can happen to the core: a step, the start of a `run`, or another host operation (R37, R66). -/
inductive Event where
  | step
  | startRun
  | host (op : HostOp)
  deriving DecidableEq, Repr

/-- The state after an event, or `none` where the event has no effect or does not happen. -/
def after (e : Event) (s : State) : Option State :=
  match e with
  | .step =>
    match Machine.step s with
    | .next t => some t
    | .fault _ => none
    | .refused _ => none
  | .startRun => Machine.startRun s
  | .host op =>
    match hostDo op s with
    | .ok t => some t
    | .err _ t => some t
    | .refused => none

/-- The states that some sequence of events reaches from reset. -/
inductive Reachable : State → Prop where
  | reset : Reachable State.reset
  | event {s t : State} (e : Event) : Reachable s → after e s = some t → Reachable t

/-- Zero or more steps, with `sp` at least `depth` before each of them. -/
inductive StepsAbove (depth : Nat) : State → State → Prop where
  | refl (s : State) : StepsAbove depth s s
  | step {s t u : State} : depth ≤ s.sp.val → Machine.step s = .next t → StepsAbove depth t u →
      StepsAbove depth s u

/-! ## What the core is about to run -/

/-- The little-endian word in the two bytes at pc (R52, R101). -/
def wordAtPc (s : State) : Word := wordOfBytes (s.mem.read s.pc.toNat) (s.mem.read (s.pc.toNat + 1))

/-- The core is RUNNING and the bytes at pc, inside memory, are the instruction `i`. -/
def Fetches (s : State) (i : Instr) : Prop :=
  s.state = .running ∧ s.pc.toNat ≤ 4094 ∧ decode (wordAtPc s) = .instr i

/-- The core is RUNNING and the bytes at pc, inside memory, are an illegal word (R90). -/
def FetchesIllegal (s : State) : Prop :=
  s.state = .running ∧ s.pc.toNat ≤ 4094 ∧ decode (wordAtPc s) = .unrecognized (wordAtPc s)

/-- Whether the word is illegal (R90). -/
def isIllegal (w : Word) : Bool :=
  match decode w with
  | .instr _ => false
  | .unrecognized _ => true

/-! ## What stays unchanged -/

/-- Every byte of memory reads as before, and nothing else about memory changed either. -/
def SameMemory (s t : State) : Prop := (∀ a : Nat, t.mem.read a = s.mem.read a) ∧ t.mem = s.mem

/-- sp and every call-stack slot are as before. -/
def SameStack (s t : State) : Prop := t.sp = s.sp ∧ t.stack = s.stack

/-- The run state and the fault latch are as before. -/
def SameStatus (s t : State) : Prop := t.state = s.state ∧ t.fault = s.fault

/-- Every register is as before. -/
def SameRegs (s t : State) : Prop := ∀ r : Reg, t.reg r = s.reg r

/-- Every register but those of the list is as before. -/
def SameRegsBut (rs : List Reg) (s t : State) : Prop := ∀ r : Reg, r ∉ rs → t.reg r = s.reg r

/-- All but the registers and pc: memory, wc, sp, the slots, the run state and the latch are as before. -/
def SameBesidesRegsAndPc (s t : State) : Prop :=
  SameMemory s t ∧ t.wc = s.wc ∧ SameStack s t ∧ SameStatus s t

/-- The frame of an instruction that only writes registers: pc is as the fetch left it, and all else but the
registers of the list is as before. -/
def OnlyRegs (rs : List Reg) (s t : State) : Prop :=
  SameRegsBut rs s t ∧ t.pc = s.pc ∧ SameBesidesRegsAndPc s t

/-- The frame of an instruction that only moves pc (R146). -/
def OnlyPc (s t : State) : Prop := SameRegs s t ∧ SameBesidesRegsAndPc s t

/-- A fault was entered: FAULTED, with this latch (R214). -/
def EnteredFault (code : FaultCode) (addr word : Word) (t : State) : Prop :=
  t.state = .faulted ∧ t.fault.code = code ∧ t.fault.addr = addr ∧ t.fault.word = word

/-- All but pc, the run state and the latch is as before (R216). -/
def SameBesidesPcAndStatus (s t : State) : Prop :=
  SameRegs s t ∧ SameMemory s t ∧ t.wc = s.wc ∧ SameStack s t

/-! ## Registers by instruction (R23) -/

/-- The registers an instruction may read. -/
def regsRead : Instr → List Reg
  | .halt => []
  | .ret => []
  | .jp _ => []
  | .call _ => []
  | .seImm x _ => [x]
  | .sneImm x _ => [x]
  | .seReg x y => [x, y]
  | .sneReg x y => [x, y]
  | .ldImm _ _ => []
  | .addImm x _ => [x]
  | .ldReg _ y => [y]
  | .orReg x y => [x, y]
  | .andReg x y => [x, y]
  | .xorReg x y => [x, y]
  | .addReg x y => [x, y]
  | .subReg x y => [x, y]
  | .shr x _ => [x]
  | .subnReg x y => [x, y]
  | .shl x _ => [x]

/-- The registers an instruction may write. -/
def regsWritten : Instr → List Reg
  | .halt => []
  | .ret => []
  | .jp _ => []
  | .call _ => []
  | .seImm _ _ => []
  | .sneImm _ _ => []
  | .seReg _ _ => []
  | .sneReg _ _ => []
  | .ldImm x _ => [x]
  | .addImm x _ => [x]
  | .ldReg x _ => [x]
  | .orReg x _ => [x]
  | .andReg x _ => [x]
  | .xorReg x _ => [x]
  | .addReg x _ => [x, Config.FLAG_REG]
  | .subReg x _ => [x, Config.FLAG_REG]
  | .shr x _ => [x, Config.FLAG_REG]
  | .subnReg x _ => [x, Config.FLAG_REG]
  | .shl x _ => [x, Config.FLAG_REG]

end Sys2Proof.Safety
end

