-- ==== Sys2Proof/Certificates/Slice0/Obligations.lean ====
section
/-!
DEFINITION. The statements for the provers, each from the numbered rules of spec/ its docstring cites.
No statement assumes a program. `Inv`, `Reachable`, the frames (`OnlyRegs`, `OnlyPc`, `SameMemory`, …) and `Fetches` are
defined in Sys2Proof/Safety.lean.
-/

open Sys2Proof Sys2Proof.Machine Sys2Proof.Safety

/-! ## Encoding (30_encoding.md) -/

/-- Words of every family, written out from the encodings of R86 and the examples of 41_control.md, 42_skip.md and
43_load_alu.md, and words next to them that are illegal. -/
def Obligations.SpecWordsDecode : Prop :=
  decode 0x0000#16 = .instr .halt ∧ decode 0x00EE#16 = .instr .ret ∧
  decode 0x1300#16 = .instr (.jp 0x300#12) ∧ decode 0x220C#16 = .instr (.call 0x20C#12) ∧
  decode 0x3342#16 = .instr (.seImm 3#4 0x42#8) ∧ decode 0x4342#16 = .instr (.sneImm 3#4 0x42#8) ∧
  decode 0x5120#16 = .instr (.seReg 1#4 2#4) ∧ decode 0x9120#16 = .instr (.sneReg 1#4 2#4) ∧
  decode 0x7203#16 = .instr (.addImm 2#4 0x03#8) ∧ decode 0x8AB5#16 = .instr (.subReg 0xA#4 0xB#4) ∧
  decode 0x8126#16 = .instr (.shr 1#4 2#4) ∧ decode 0x803E#16 = .instr (.shl 0#4 3#4) ∧
  decode 0x00E0#16 = .unrecognized 0x00E0#16 ∧ decode 0x5121#16 = .unrecognized 0x5121#16 ∧
  decode 0x8008#16 = .unrecognized 0x8008#16 ∧ decode 0xFFFF#16 = .unrecognized 0xFFFF#16

/-- Decoding inverts encoding, for every instruction and every operand value, from the word and from the bytes in
memory order, the bytes after it left over (R81, R82, R92). -/
def Obligations.DecodeInvertsEncode : Prop :=
  ∀ (i : Instr) (rest : List Byte),
    decode (encode i) = .instr i ∧ decodeBytes (encodeBytes i ++ rest) = .decoded (.instr i) rest

/-- Encoding inverts decoding: every legal word is the encoding of what it decodes to, so no bit of it is dropped
(the ignored Y of a shift included), and an illegal word is carried whole (R86, R92). -/
def Obligations.EncodeInvertsDecode : Prop :=
  ∀ w : Word, (∀ i, decode w = .instr i → encode i = w) ∧ (∀ v, decode w = .unrecognized v → v = w)

/-- The table of R86 is the decision procedure: a word that matches a row decodes to that row's instruction with its
fields, and a word that matches none decodes to UNRECOGNIZED. That a word matches at most one row is the spec's own
inference (R86, "[derived: from the masks"). -/
def Obligations.OpcodeMapDecides : Prop :=
  (∀ (w : Word) (r : OpcodeRow), r ∈ opcodeTable → r.matchesWord w = true → decode w = .instr (r.build w)) ∧
  (∀ w : Word, opcodeTable.Pairwise (fun r q => ¬ (r.matchesWord w = true ∧ q.matchesWord w = true))) ∧
  (∀ w : Word, (∀ r ∈ opcodeTable, r.matchesWord w = false) → decode w = .unrecognized w)

/-- The illegal words are those that match no row, which are exactly those R90 lists, in the numbers it infers: 4094,
7680, 1792, 24576, which are 38142 of the 65536; and executing one raises UnrecognizedInstruction. -/
def Obligations.IllegalWordsAreExactlyThese : Prop :=
  (∀ w : Word, isIllegal w = true ↔ ∀ r ∈ opcodeTable, r.matchesWord w = false) ∧
  (∀ w : Word, isIllegal w = true ↔
    (fieldC w = 0x0#4 ∧ w ≠ 0x0000#16 ∧ w ≠ 0x00EE#16) ∨
    ((fieldC w = 0x5#4 ∨ fieldC w = 0x9#4) ∧ fieldD w ≠ 0x0#4) ∨
    (fieldC w = 0x8#4 ∧ fieldD w ∈ [0x8#4, 0x9#4, 0xA#4, 0xB#4, 0xC#4, 0xD#4, 0xF#4]) ∨
    0xA ≤ (fieldC w).toNat) ∧
  ((List.range 65536).countP (fun n => isIllegal (BitVec.ofNat 16 n)) = 38142 ∧
    (List.range' 0x0000 0x1000).countP (fun n => isIllegal (BitVec.ofNat 16 n)) = 4094 ∧
    (List.range' 0x5000 0x1000).countP (fun n => isIllegal (BitVec.ofNat 16 n)) = 3840 ∧
    (List.range' 0x8000 0x1000).countP (fun n => isIllegal (BitVec.ofNat 16 n)) = 1792 ∧
    (List.range' 0x9000 0x1000).countP (fun n => isIllegal (BitVec.ofNat 16 n)) = 3840 ∧
    (List.range' 0xA000 0x6000).countP (fun n => isIllegal (BitVec.ofNat 16 n)) = 24576) ∧
  (∀ s : State, s.state = .running → s.pc.toNat ≤ 4094 → isIllegal (wordAtPc s) = true →
    ∃ t, step s = .next t ∧ t.state = .faulted ∧ t.fault.code = .unrecognizedInstruction)

/-- A word with C = 5 or C = 9 and D ≠ 0 is UNRECOGNIZED, and with D = 0 it is SE or SNE (R88). -/
def Obligations.RegisterSkipsNeedZeroD : Prop :=
  ∀ w : Word, (fieldC w = 0x5#4 ∨ fieldC w = 0x9#4) →
    (fieldD w ≠ 0x0#4 → decode w = .unrecognized w) ∧
    (fieldD w = 0x0#4 → fieldC w = 0x5#4 → decode w = .instr (.seReg (fieldX w) (fieldY w))) ∧
    (fieldD w = 0x0#4 → fieldC w = 0x9#4 → decode w = .instr (.sneReg (fieldX w) (fieldY w)))

/-- The assembler's spelling loses nothing but the Y of a shift: assembling the instruction of a word gives the word
back exactly where it is canonical, which fails only for a shift with Y ≠ 0; what it gives always decodes to the
canonical instruction and disassembles as the word does (R93). -/
def Obligations.ReassemblyLosesOnlyShiftY : Prop :=
  ∀ (w : Word) (i : Instr), decode w = .instr i →
    (assemble i = w ↔ i.isCanonical = true) ∧
    (i.isCanonical = false ↔ ∃ x y : Reg, y ≠ 0x0#4 ∧ (i = .shr x y ∨ i = .shl x y)) ∧
    decode (assemble i) = .instr i.canonical ∧ disassemble (assemble i) = disassemble w

/-! ## Memory (20_memory.md) -/

/-- A 16-bit write in bounds stores the low byte at `a` and the high byte at `a + 1`, leaves every other byte alone,
and a 2-byte read at `a` gives the word back (R53), at any address, even or odd (R57). -/
def Obligations.WordWriteReadsBack : Prop :=
  ∀ (m : Memory) (a : Nat) (w : Word), a ≤ 4094 →
    ∃ m', memWrite2 m a w = some m' ∧
      (m'.read a).toNat = w.toNat % 256 ∧ (m'.read (a + 1)).toNat = w.toNat / 256 ∧
      (∀ b, b ≠ a → b ≠ a + 1 → m'.read b = m.read b) ∧ memRead2 m' a = some w

/-- Every byte an access touches has an address below 4096: a 2-byte read or write happens exactly where a ≤ 4094 and
a 1-byte read where a ≤ 4095; a read in bounds gives `mem[a]` or `(mem[a+1] << 8) | mem[a]` (R14, R52, R55, R56). -/
def Obligations.AccessesStayInBounds : Prop :=
  ∀ (m : Memory) (a : Nat) (w : Word),
    (memRead1 m a = if a ≤ 4095 then some (m.read a) else none) ∧
    (4094 < a → memRead2 m a = none ∧ memWrite2 m a w = none) ∧
    (a ≤ 4094 → ∃ v, memRead2 m a = some v ∧ v.toNat = (m.read (a + 1)).toNat * 256 + (m.read a).toNat)

/-- A read that straddles two written words sees the high byte of the first as its low byte and the low byte of the
second as its high byte (R54). -/
def Obligations.StraddledReadMixesWords : Prop :=
  ∀ (m : Memory) (a : Nat) (w v : Word), a ≤ 4092 →
    ∃ m1 m2 u, memWrite2 m a w = some m1 ∧ memWrite2 m1 (a + 2) v = some m2 ∧ memRead2 m2 (a + 1) = some u ∧
      u.toNat = (v.toNat % 256) * 256 + w.toNat / 256

/-- Instructions reach memory only through the fetch: an instruction leaves every byte and wc alone and its result does
not depend on memory; and whatever event changes memory is `set_opcode`, `write_into`, `load` or reset (R51, the spec's
own inference). -/
def Obligations.OnlyHostWritesMemory : Prop :=
  (∀ (i : Instr) (s t : State) (m : Memory), exec i s = .next t →
    SameMemory s t ∧ t.wc = s.wc ∧ exec i { s with mem := m } = .next { t with mem := m }) ∧
  (∀ (e : Event) (s t : State), after e s = some t → t.mem ≠ s.mem →
    e = .host .new ∨ (∃ w, e = .host (.setOpcode w)) ∨ (∃ w a, e = .host (.writeInto w a)) ∨
      (∃ bs, e = .host (.load bs)))

/-! ## The step (40_dispatch.md) -/

/-- A step runs the decoded instruction: when the core is RUNNING and the two bytes at pc decode to `i`, the step is
`exec i` on the state whose pc has advanced by 2 and which is otherwise unchanged (R101). -/
def Obligations.StepRunsDecodedInstruction : Prop :=
  ∀ (s : State) (i : Instr) (rest : List Byte), s.state = .running → s.pc.toNat ≤ 4094 →
    decodeBytes (s.mem.read s.pc.toNat :: s.mem.read (s.pc.toNat + 1) :: rest) = .decoded (.instr i) rest →
      step s = exec i { s with pc := s.pc + 2#16 }

/-- Whatever instruction's bytes lie at pc, low byte first, is what runs (R80, R101). -/
def Obligations.StepRunsEncodedInstruction : Prop :=
  ∀ (s : State) (i : Instr), s.state = .running → s.pc.toNat ≤ 4094 →
    [s.mem.read s.pc.toNat, s.mem.read (s.pc.toNat + 1)] = encodeBytes i →
      step s = exec i { s with pc := s.pc + 2#16 }

/-- A step is enabled exactly in RUNNING; in READY, HALTED and FAULTED no step happens (R100). That the model answers
there with a named fault of its own is its choice (log entry 1); the statement says only that there is no next state.
-/
def Obligations.StepOnlyWhileRunning : Prop :=
  ∀ s : State, (∃ t, step s = .next t) ↔ s.state = .running

/-- A fetch at pc above 4094 raises AddressOutOfBounds with addr = pc and word = 0, leaves pc and everything else,
and reads no memory: the same happens whatever memory holds (R102, the spec's own decision D5). -/
def Obligations.FetchOutOfBoundsFaults : Prop :=
  ∀ s : State, s.state = .running → 4094 < s.pc.toNat →
    ∃ t, step s = .next t ∧ EnteredFault .addressOutOfBounds s.pc 0#16 t ∧ t.pc = s.pc ∧
      SameBesidesPcAndStatus s t ∧ ∀ m : Memory, step { s with mem := m } = .next { t with mem := m }

/-- An illegal word raises UnrecognizedInstruction with the word's address and the word, pc past the word and
everything else as before; the run ends FAULTED, not HALTED (R202). -/
def Obligations.IllegalWordFaults : Prop :=
  ∀ s : State, FetchesIllegal s →
    ∃ t, step s = .next t ∧ EnteredFault .unrecognizedInstruction s.pc (wordAtPc s) t ∧
      t.state ≠ .halted ∧ t.pc = s.pc + 2#16 ∧ SameBesidesPcAndStatus s t

/-- A step from RUNNING has exactly three outcomes: continue, still RUNNING with the latch untouched and the
instruction executed in full; halt, where HALT executed; fault, with the latch written. It is never refused (R104). -/
def Obligations.StepHasThreeOutcomes : Prop :=
  ∀ s : State, s.state = .running →
    ∃ t, step s = .next t ∧
      ((t.state = .running ∧ t.fault = s.fault ∧
          ∃ i, Fetches s i ∧ i ≠ .halt ∧ exec i { s with pc := s.pc + 2#16 } = .next t) ∨
       (t.state = .halted ∧ t.fault = s.fault ∧ Fetches s .halt) ∨
       (t.state = .faulted ∧ t.fault.code ≠ .noFault))

/-- When a step faults, and with which code, checked in the order fetch bounds, decode, the instruction's own check
(R215); so a step ends FAULTED exactly when one of the four premises of R251 fails (the spec's own inference). -/
def Obligations.StepFaultsExactlyWhen : Prop :=
  ∀ s t : State, s.state = .running → step s = .next t →
    (t.state = .faulted ↔
      4094 < s.pc.toNat ∨ FetchesIllegal s ∨ (Fetches s .ret ∧ s.sp.val = 0) ∨
        (∃ nnn, Fetches s (.call nnn) ∧ s.sp.val = 16)) ∧
    (t.state = .faulted → t.fault.code =
      if 4094 < s.pc.toNat then .addressOutOfBounds
      else if isIllegal (wordAtPc s) then .unrecognizedInstruction
      else if s.sp.val = 0 then .stackUnderflow else .stackOverflow)

/-- The numbers of the fault codes are those of R213's table, the spec's own choice (92_eei_decisions.md D13). -/
def Obligations.FaultCodesAreNumberedAsTabled : Prop :=
  FaultCode.noFault.number = 0 ∧ FaultCode.unrecognizedInstruction.number = 1 ∧
  FaultCode.registerIndexOutOfRange.number = 2 ∧ FaultCode.addressOutOfBounds.number = 3 ∧
  FaultCode.stackUnderflow.number = 4 ∧ FaultCode.stackOverflow.number = 5

/-- Faults are precise. A faulting step leaves everything as before but the run state, the latch and pc, which is
a + 2 unless the fetch itself faulted; a faulting host operation leaves everything as before but the run state and the
latch (R216, which states the spec's own decision D25). -/
def Obligations.FaultsArePrecise : Prop :=
  (∀ s t : State, s.state = .running → step s = .next t → t.state = .faulted →
    SameBesidesPcAndStatus s t ∧ t.pc = (if 4094 < s.pc.toNat then s.pc else s.pc + 2#16) ∧
      t.fault.code ≠ .noFault) ∧
  (∀ (op : HostOp) (s t : State) (f : FaultLatch), hostDo op s = .err f t →
    SameBesidesPcAndStatus s t ∧ t.pc = s.pc ∧ t.state = .faulted ∧ t.fault = f ∧ f.code ≠ .noFault)

/-! ## The program counter and the register file (10_state.md) -/

/-- pc is written only by the fetch, a taken skip, JP, CALL, RET and reset; no host operation other than reset writes
it (R25). The first clause speaks of the state after the fetch's own advance, which the second accounts for. -/
def Obligations.PcWrittenOnlyByTheseEvents : Prop :=
  (∀ (i : Instr) (s t : State), exec i s = .next t → t.pc ≠ s.pc →
    ((∃ x nn, i = .seImm x nn ∨ i = .sneImm x nn) ∨ (∃ x y, i = .seReg x y ∨ i = .sneReg x y)) ∧
        t.pc = s.pc + 2#16 ∨
      (∃ nnn : Addr12, (i = .jp nnn ∨ i = .call nnn) ∧ t.pc.toNat = nnn.toNat) ∨
      (i = .ret ∧ ∃ k : Fin 16, s.sp.val = k.val + 1 ∧ t.pc = s.stack[k.val]'k.isLt)) ∧
  (∀ s t : State, step s = .next t → t.pc = s.pc ∨ t.pc = s.pc + 2#16 ∨
    ∃ i, Fetches s i ∧ exec i { s with pc := s.pc + 2#16 } = .next t) ∧
  (∀ (e : Event) (s t : State), e ≠ .step → after e s = some t → e ≠ .host .new → t.pc = s.pc) ∧
  (∀ s t : State, after (.host .new) s = some t → t.pc = 0x200#16)

/-- An instruction writes no general register but those the table of R23 gives it. -/
def Obligations.RegistersWrittenAsTabled : Prop :=
  ∀ (i : Instr) (s t : State), exec i s = .next t → SameRegsBut (regsWritten i) s t

/-- An instruction reads no general register but those the table of R23 gives it: with another value in a register it
does not read, every other register and every other component comes out the same, and that register comes out the
same where it is written and keeps the other value where it is not. -/
def Obligations.RegistersReadAsTabled : Prop :=
  ∀ (i : Instr) (s t : State) (r : Reg) (v : Byte), r ∉ regsRead i → exec i s = .next t →
    ∃ u, exec i (s.setReg r v) = .next u ∧ (∀ q, q ≠ r → u.reg q = t.reg q) ∧
      (u.reg r = t.reg r ∨ (u.reg r = v ∧ t.reg r = s.reg r)) ∧ { u with x := t.x } = t

/-! ## Control transfer (41_control.md) -/

/-- HALT is the word 0x0000 alone; it makes the run state HALTED and leaves pc, the registers, memory, the stack and
the latch (R120). -/
def Obligations.HaltStopsTheRun : Prop :=
  (∀ w : Word, decode w = .instr .halt ↔ w = 0x0000#16) ∧
  ∀ s : State, ∃ t, exec .halt s = .next t ∧ t.state = .halted ∧ t.pc = s.pc ∧ t.fault = s.fault ∧
    SameRegs s t ∧ SameMemory s t ∧ t.wc = s.wc ∧ SameStack s t

/-- RET with a call pending: sp goes down by one, pc takes the popped slot and the slot becomes 0; every other slot,
every register, memory, the run state and the latch stay. With no call pending it raises StackUnderflow with its own
address and the word 0x00EE, before any write of its own: sp stays 0 and pc stays past the word (R122, R205). -/
def Obligations.RetPopsReturnAddress : Prop :=
  (∀ w : Word, decode w = .instr .ret ↔ w = 0x00EE#16) ∧
  (∀ (s : State) (k : Fin 16), s.sp.val = k.val + 1 →
    ∃ t, exec .ret s = .next t ∧ t.sp.val = k.val ∧ t.pc = s.stack[k.val]'k.isLt ∧
      t.stack[k.val]'k.isLt = 0#16 ∧
      (∀ j : Fin 16, j ≠ k → t.stack[j.val]'j.isLt = s.stack[j.val]'j.isLt) ∧
      SameRegs s t ∧ SameMemory s t ∧ t.wc = s.wc ∧ SameStatus s t) ∧
  (∀ s : State, Fetches s .ret → s.sp.val = 0 →
    ∃ t, step s = .next t ∧ EnteredFault .stackUnderflow s.pc 0x00EE#16 t ∧
      t.pc = s.pc + 2#16 ∧ SameBesidesPcAndStatus s t)

/-- JP nnn: pc takes NNN, zero-extended, neither scaled nor relative, and nothing else changes (R123). -/
def Obligations.JpSetsPc : Prop :=
  (∀ w : Word, w &&& 0xF000#16 = 0x1000#16 → decode w = .instr (.jp (fieldNNN w))) ∧
  ∀ (nnn : Addr12) (s : State), ∃ t, exec (.jp nnn) s = .next t ∧ t.pc.toNat = nnn.toNat ∧ OnlyPc s t

/-- CALL nnn with fewer than 16 calls pending: slot sp takes the return address, which is pc after the fetch, sp goes
up by one and pc takes NNN; every other slot, every register, memory, the run state and the latch stay. With 16 calls
pending it raises StackOverflow with its own address and word, before the push: the stack and sp stay and pc
stays past the word (R125, R206). -/
def Obligations.CallPushesReturnAddress : Prop :=
  (∀ w : Word, w &&& 0xF000#16 = 0x2000#16 → decode w = .instr (.call (fieldNNN w))) ∧
  (∀ (nnn : Addr12) (s : State) (k : Fin 16), s.sp.val = k.val →
    ∃ t, exec (.call nnn) s = .next t ∧ t.sp.val = k.val + 1 ∧ t.pc.toNat = nnn.toNat ∧
      t.stack[k.val]'k.isLt = s.pc ∧
      (∀ j : Fin 16, j ≠ k → t.stack[j.val]'j.isLt = s.stack[j.val]'j.isLt) ∧
      SameRegs s t ∧ SameMemory s t ∧ t.wc = s.wc ∧ SameStatus s t) ∧
  (∀ (s : State) (nnn : Addr12), Fetches s (.call nnn) → s.sp.val = 16 →
    ∃ t, step s = .next t ∧ EnteredFault .stackOverflow s.pc (wordAtPc s) t ∧
      t.pc = s.pc + 2#16 ∧ SameBesidesPcAndStatus s t)

/-- A CALL that does not fault and the RET that pops the slot it pushed, any number of steps later: sp is back at its
value before the CALL, pc is the CALL's address plus 2, and the slots of the calls pending before the CALL are
untouched (R124, the spec's own inference). "The RET that pops the slot it pushed" is a RET at sp + 1 reached by steps
alone with sp above its old value at every one; a HALT and a new `run` between the two are not spoken of. -/
def Obligations.CallAndRetPair : Prop :=
  ∀ (s t u v : State) (nnn : Addr12), Fetches s (.call nnn) → s.sp.val < 16 → step s = .next t →
    StepsAbove (s.sp.val + 1) t u → Fetches u .ret → u.sp.val = s.sp.val + 1 → step u = .next v →
      v.sp = s.sp ∧ v.pc = s.pc + 2#16 ∧
        ∀ k : Fin 16, k.val < s.sp.val → v.stack[k.val]'k.isLt = s.stack[k.val]'k.isLt

/-! ## Conditional skips (42_skip.md) -/

/-- SE Vx, nn: pc moves 2 further exactly where Vx = NN; nothing else changes (R141). -/
def Obligations.SkipIfEqualImmediate : Prop :=
  (∀ w : Word, w &&& 0xF000#16 = 0x3000#16 → decode w = .instr (.seImm (fieldX w) (fieldNN w))) ∧
  ∀ (x : Reg) (nn : Byte) (s : State), ∃ t, exec (.seImm x nn) s = .next t ∧
    t.pc = (if (s.reg x).toNat = nn.toNat then s.pc + 2#16 else s.pc) ∧ OnlyPc s t

/-- SNE Vx, nn: pc moves 2 further exactly where Vx ≠ NN; nothing else changes (R142). -/
def Obligations.SkipIfNotEqualImmediate : Prop :=
  (∀ w : Word, w &&& 0xF000#16 = 0x4000#16 → decode w = .instr (.sneImm (fieldX w) (fieldNN w))) ∧
  ∀ (x : Reg) (nn : Byte) (s : State), ∃ t, exec (.sneImm x nn) s = .next t ∧
    t.pc = (if (s.reg x).toNat ≠ nn.toNat then s.pc + 2#16 else s.pc) ∧ OnlyPc s t

/-- SE Vx, Vy: pc moves 2 further exactly where Vx = Vy; nothing else changes (R143). That X = Y always skips is the
spec's own inference (R143, "[derived: from the pseudocode]"). -/
def Obligations.SkipIfRegistersEqual : Prop :=
  (∀ w : Word, w &&& 0xF00F#16 = 0x5000#16 → decode w = .instr (.seReg (fieldX w) (fieldY w))) ∧
  (∀ w : Word, w &&& 0xF000#16 = 0x5000#16 → fieldD w ≠ 0#4 → decode w = .unrecognized w) ∧
  ∀ (x y : Reg) (s : State), ∃ t, exec (.seReg x y) s = .next t ∧
    t.pc = (if (s.reg x).toNat = (s.reg y).toNat then s.pc + 2#16 else s.pc) ∧
    (x = y → t.pc = s.pc + 2#16) ∧ OnlyPc s t

/-- SNE Vx, Vy: pc moves 2 further exactly where Vx ≠ Vy; nothing else changes (R144). That X = Y never skips is the
spec's own inference (R144, "[derived: from the pseudocode]"). -/
def Obligations.SkipIfRegistersDiffer : Prop :=
  (∀ w : Word, w &&& 0xF00F#16 = 0x9000#16 → decode w = .instr (.sneReg (fieldX w) (fieldY w))) ∧
  (∀ w : Word, w &&& 0xF000#16 = 0x9000#16 → fieldD w ≠ 0#4 → decode w = .unrecognized w) ∧
  ∀ (x y : Reg) (s : State), ∃ t, exec (.sneReg x y) s = .next t ∧
    t.pc = (if (s.reg x).toNat ≠ (s.reg y).toNat then s.pc + 2#16 else s.pc) ∧
    (x = y → t.pc = s.pc) ∧ OnlyPc s t

/-- A whole step of a skip moves pc by 4 where its condition holds and by 2 otherwise, without wrapping, whatever the
skipped bytes are and wherever the skip stands, and the core goes on running (R140, R145, the spec's own inference).
-/
def Obligations.SkipDistanceIsFourOrTwo : Prop :=
  ∀ (s : State) (x y : Reg) (nn : Byte),
    (Fetches s (.seImm x nn) → ∃ t, step s = .next t ∧ t.state = .running ∧ OnlyPc s t ∧
      t.pc.toNat = s.pc.toNat + (if s.reg x = nn then 4 else 2)) ∧
    (Fetches s (.sneImm x nn) → ∃ t, step s = .next t ∧ t.state = .running ∧ OnlyPc s t ∧
      t.pc.toNat = s.pc.toNat + (if s.reg x = nn then 2 else 4)) ∧
    (Fetches s (.seReg x y) → ∃ t, step s = .next t ∧ t.state = .running ∧ OnlyPc s t ∧
      t.pc.toNat = s.pc.toNat + (if s.reg x = s.reg y then 4 else 2)) ∧
    (Fetches s (.sneReg x y) → ∃ t, step s = .next t ∧ t.state = .running ∧ OnlyPc s t ∧
      t.pc.toNat = s.pc.toNat + (if s.reg x = s.reg y then 2 else 4))

/-! ## Register loads and arithmetic-logic (43_load_alu.md) -/

/-- LD Vx, nn: Vx takes NN exactly, VF included where X = 15, and nothing else changes (R161). -/
def Obligations.LoadImmediate : Prop :=
  (∀ w : Word, w &&& 0xF000#16 = 0x6000#16 → decode w = .instr (.ldImm (fieldX w) (fieldNN w))) ∧
  ∀ (x : Reg) (nn : Byte) (s : State), ∃ t, exec (.ldImm x nn) s = .next t ∧ t.reg x = nn ∧ OnlyRegs [x] s t

/-- ADD Vx, nn: Vx takes the sum modulo 256; VF is not written unless X = 15, and nothing else changes (R162). -/
def Obligations.AddImmediateWraps : Prop :=
  (∀ w : Word, w &&& 0xF000#16 = 0x7000#16 → decode w = .instr (.addImm (fieldX w) (fieldNN w))) ∧
  ∀ (x : Reg) (nn : Byte) (s : State), ∃ t, exec (.addImm x nn) s = .next t ∧
    (t.reg x).toNat = ((s.reg x).toNat + nn.toNat) % 256 ∧ OnlyRegs [x] s t

/-- LD Vx, Vy: Vx takes Vy and nothing else changes (R164). -/
def Obligations.CopyRegister : Prop :=
  (∀ w : Word, w &&& 0xF00F#16 = 0x8000#16 → decode w = .instr (.ldReg (fieldX w) (fieldY w))) ∧
  ∀ (x y : Reg) (s : State), ∃ t, exec (.ldReg x y) s = .next t ∧ t.reg x = s.reg y ∧ OnlyRegs [x] s t

/-- OR, AND and XOR write Vx alone, bit by bit; none writes VF unless X = 15 (R166, R167, R168). -/
def Obligations.BitwiseOperations : Prop :=
  (∀ w : Word, (w &&& 0xF00F#16 = 0x8001#16 → decode w = .instr (.orReg (fieldX w) (fieldY w))) ∧
    (w &&& 0xF00F#16 = 0x8002#16 → decode w = .instr (.andReg (fieldX w) (fieldY w))) ∧
    (w &&& 0xF00F#16 = 0x8003#16 → decode w = .instr (.xorReg (fieldX w) (fieldY w)))) ∧
  ∀ (x y : Reg) (s : State),
    (∃ t, exec (.orReg x y) s = .next t ∧ OnlyRegs [x] s t ∧
      ∀ b < 8, (t.reg x).getLsbD b = ((s.reg x).getLsbD b || (s.reg y).getLsbD b)) ∧
    (∃ t, exec (.andReg x y) s = .next t ∧ OnlyRegs [x] s t ∧
      ∀ b < 8, (t.reg x).getLsbD b = ((s.reg x).getLsbD b && (s.reg y).getLsbD b)) ∧
    (∃ t, exec (.xorReg x y) s = .next t ∧ OnlyRegs [x] s t ∧
      ∀ b < 8, (t.reg x).getLsbD b = ((s.reg x).getLsbD b ^^ (s.reg y).getLsbD b))

/-- ADD Vx, Vy: where the exact sum is at most 255 Vx takes it and VF is not written (unless X = 15); where it is
above, VF <- 1 and Vx is not written (unless X = 15). Nothing else changes (R172). -/
def Obligations.AddRegistersSetsOverflowFlag : Prop :=
  (∀ w : Word, w &&& 0xF00F#16 = 0x8004#16 → decode w = .instr (.addReg (fieldX w) (fieldY w))) ∧
  ∀ (x y : Reg) (s : State), ∃ t, exec (.addReg x y) s = .next t ∧
    ((s.reg x).toNat + (s.reg y).toNat ≤ 255 →
      (t.reg x).toNat = (s.reg x).toNat + (s.reg y).toNat ∧ OnlyRegs [x] s t) ∧
    (255 < (s.reg x).toNat + (s.reg y).toNat → t.reg 15#4 = 1#8 ∧ OnlyRegs [15#4] s t)

/-- SUB Vx, Vy: VF ends as 1 where Vx ≥ Vy before the instruction and 0 otherwise, for every X and Y; Vx takes the
difference modulo 256 unless X = 15. Nothing else changes (R174, the definition that the spec picks:
92_eei_decisions.md D10). -/
def Obligations.SubSetsNoBorrowFlag : Prop :=
  (∀ w : Word, w &&& 0xF00F#16 = 0x8005#16 → decode w = .instr (.subReg (fieldX w) (fieldY w))) ∧
  ∀ (x y : Reg) (s : State), ∃ t, exec (.subReg x y) s = .next t ∧
    t.reg 15#4 = (if (s.reg y).toNat ≤ (s.reg x).toNat then 1#8 else 0#8) ∧
    (x ≠ 15#4 → (t.reg x).toNat = ((s.reg x).toNat + 256 - (s.reg y).toNat) % 256) ∧
    OnlyRegs [x, 15#4] s t

/-- SHR Vx, any Y: VF takes bit 0 of Vx and Vx is halved; where X = 15, VF ends as 0 for every starting value. Nothing
else changes (R176). -/
def Obligations.ShiftRightByOne : Prop :=
  (∀ w : Word, w &&& 0xF00F#16 = 0x8006#16 → decode w = .instr (.shr (fieldX w) (fieldY w))) ∧
  ∀ (x y : Reg) (s : State), ∃ t, exec (.shr x y) s = .next t ∧
    (x ≠ 15#4 → (t.reg 15#4).toNat = (s.reg x).toNat % 2 ∧ (t.reg x).toNat = (s.reg x).toNat / 2) ∧
    (x = 15#4 → t.reg 15#4 = 0#8) ∧ OnlyRegs [x, 15#4] s t

/-- SUBN Vx, Vy: where Vy < Vx, VF <- 1 and Vx is not written (unless X = 15); otherwise Vx takes Vy - Vx unless
X = 15, and VF ends as 0. Nothing else changes (R177). -/
def Obligations.ReverseSubSetsBorrowFlag : Prop :=
  (∀ w : Word, w &&& 0xF00F#16 = 0x8007#16 → decode w = .instr (.subnReg (fieldX w) (fieldY w))) ∧
  ∀ (x y : Reg) (s : State), ∃ t, exec (.subnReg x y) s = .next t ∧
    ((s.reg y).toNat < (s.reg x).toNat → t.reg 15#4 = 1#8 ∧ OnlyRegs [15#4] s t) ∧
    ((s.reg x).toNat ≤ (s.reg y).toNat → t.reg 15#4 = 0#8 ∧
      (x ≠ 15#4 → (t.reg x).toNat = (s.reg y).toNat - (s.reg x).toNat) ∧ OnlyRegs [x, 15#4] s t)

/-- SHL Vx, any Y: VF takes bit 7 of Vx and Vx is doubled modulo 256; where X = 15, VF ends as 2 where bit 7 was set
and as 0 otherwise. Nothing else changes (R178). -/
def Obligations.ShiftLeftByOne : Prop :=
  (∀ w : Word, w &&& 0xF00F#16 = 0x800E#16 → decode w = .instr (.shl (fieldX w) (fieldY w))) ∧
  ∀ (x y : Reg) (s : State), ∃ t, exec (.shl x y) s = .next t ∧
    (x ≠ 15#4 → (t.reg 15#4).toNat = (s.reg x).toNat / 128 ∧ (t.reg x).toNat = (s.reg x).toNat * 2 % 256) ∧
    (x = 15#4 → t.reg 15#4 = (if 128 ≤ (s.reg x).toNat then 2#8 else 0#8)) ∧ OnlyRegs [x, 15#4] s t

/-! ## The host interface, reset and run (20_memory.md, 40_dispatch.md, 70_reset_and_hazards.md) -/

/-- `set_opcode(w)`: refused in RUNNING and FAULTED; AddressOutOfBounds with addr = wc and word = w where wc > 4094,
nothing written; otherwise w lands little-endian at wc, wc moves by 2 and nothing else changes (R58, with the
spec's own decision D4 for the bound). What a host operation returns has the model's form (log entry 7). -/
def Obligations.SetOpcodeAppendsWord : Prop :=
  ∀ (w : Word) (s : State),
    ((s.state = .running ∨ s.state = .faulted) → hostDo (.setOpcode w) s = .refused) ∧
    ((s.state = .ready ∨ s.state = .halted) → 4094 < s.wc.toNat →
      ∃ t, hostDo (.setOpcode w) s = .err t.fault t ∧ EnteredFault .addressOutOfBounds s.wc w t ∧
        t.pc = s.pc ∧ SameBesidesPcAndStatus s t) ∧
    ((s.state = .ready ∨ s.state = .halted) → s.wc.toNat ≤ 4094 →
      ∃ t, hostDo (.setOpcode w) s = .ok t ∧ t.wc.toNat = s.wc.toNat + 2 ∧
        (t.mem.read s.wc.toNat).toNat = w.toNat % 256 ∧ (t.mem.read (s.wc.toNat + 1)).toNat = w.toNat / 256 ∧
        (∀ a, a ≠ s.wc.toNat → a ≠ s.wc.toNat + 1 → t.mem.read a = s.mem.read a) ∧
        SameRegs s t ∧ t.pc = s.pc ∧ SameStack s t ∧ SameStatus s t)

/-- `write_into(w, a)`: refused in RUNNING and FAULTED; AddressOutOfBounds with addr = a and word = w where a > 4094,
nothing written; otherwise w lands little-endian at a and nothing else changes, neither cursor among it (R59, with
the spec's own decisions D4 and D8). What a host operation returns has the model's form (log entry 7). -/
def Obligations.WriteIntoStoresWord : Prop :=
  ∀ (w a : Word) (s : State),
    ((s.state = .running ∨ s.state = .faulted) → hostDo (.writeInto w a) s = .refused) ∧
    ((s.state = .ready ∨ s.state = .halted) → 4094 < a.toNat →
      ∃ t, hostDo (.writeInto w a) s = .err t.fault t ∧ EnteredFault .addressOutOfBounds a w t ∧
        t.pc = s.pc ∧ SameBesidesPcAndStatus s t) ∧
    ((s.state = .ready ∨ s.state = .halted) → a.toNat ≤ 4094 →
      ∃ t, hostDo (.writeInto w a) s = .ok t ∧ t.wc = s.wc ∧ t.pc = s.pc ∧
        (t.mem.read a.toNat).toNat = w.toNat % 256 ∧ (t.mem.read (a.toNat + 1)).toNat = w.toNat / 256 ∧
        (∀ b, b ≠ a.toNat → b ≠ a.toNat + 1 → t.mem.read b = s.mem.read b) ∧
        SameRegs s t ∧ SameStack s t ∧ SameStatus s t)

/-- A host write is complete before the next fetch: a word written at pc between runs is what the first step of the
next run fetches and executes (R68, the spec's own inference from rules such as R59, R101 and R107). -/
def Obligations.HostWriteIsSeenByNextFetch : Prop :=
  ∀ (s : State) (w : Word), (s.state = .ready ∨ s.state = .halted) → s.pc.toNat ≤ 4094 →
    ∃ t u, hostDo (.writeInto w s.pc) s = .ok t ∧ startRun t = some u ∧ u.state = .running ∧ u.pc = s.pc ∧
      wordAtPc u = w ∧ (∀ i, decode w = .instr i → step u = exec i { u with pc := s.pc + 2#16 })

/-- `load(bytes)`: refused in RUNNING and FAULTED; AddressOutOfBounds with addr = 0x1000 and word = 0 for more than
3584 bytes, nothing written; otherwise byte k lands in mem[0x200 + k] as it is, and nothing else changes (R60,
R61, with the spec's own decisions D26 and D3). What a host operation returns has the model's form (log entry 7). -/
def Obligations.LoadCopiesBytes : Prop :=
  ∀ (bs : List Byte) (s : State),
    ((s.state = .running ∨ s.state = .faulted) → hostDo (.load bs) s = .refused) ∧
    ((s.state = .ready ∨ s.state = .halted) → 3584 < bs.length →
      ∃ t, hostDo (.load bs) s = .err t.fault t ∧ EnteredFault .addressOutOfBounds 0x1000#16 0#16 t ∧
        t.pc = s.pc ∧ SameBesidesPcAndStatus s t) ∧
    ((s.state = .ready ∨ s.state = .halted) → bs.length ≤ 3584 →
      ∃ t, hostDo (.load bs) s = .ok t ∧
        (∀ (k : Nat) (h : k < bs.length), t.mem.read (0x200 + k) = bs[k]) ∧
        (∀ a, (a < 0x200 ∨ 0x200 + bs.length ≤ a) → t.mem.read a = s.mem.read a) ∧
        SameRegs s t ∧ t.pc = s.pc ∧ t.wc = s.wc ∧ SameStack s t ∧ SameStatus s t)

/-- `set_register(i, v)`: refused in RUNNING and FAULTED; RegisterIndexOutOfRange with addr = i mod 65536 and word = v
for i ≥ 16; otherwise register i takes v and nothing else changes (R243, the spec's own addition D16). What a host
operation returns has the model's form (log entry 7). -/
def Obligations.SetRegisterPresets : Prop :=
  ∀ (i : Nat) (v : Byte) (s : State),
    ((s.state = .running ∨ s.state = .faulted) → hostDo (.setRegister i v) s = .refused) ∧
    ((s.state = .ready ∨ s.state = .halted) → 16 ≤ i →
      ∃ t, hostDo (.setRegister i v) s = .err t.fault t ∧ t.state = .faulted ∧
        t.fault.code = .registerIndexOutOfRange ∧ t.fault.addr.toNat = i % 65536 ∧
        t.fault.word.toNat = v.toNat ∧ t.pc = s.pc ∧ SameBesidesPcAndStatus s t) ∧
    (∀ r : Reg, (s.state = .ready ∨ s.state = .halted) → r.toNat = i →
      ∃ t, hostDo (.setRegister i v) s = .ok t ∧ t.reg r = v ∧ OnlyRegs [r] s t)

/-- Reset in READY, HALTED and FAULTED leaves every component at its reset value: registers, memory and slots 0, pc and
wc 0x200, sp 0, READY, the latch cleared (R41, R240, with the spec's own decision D17). That `new()` is answered with a
refusal in RUNNING, where R240 says that it cannot happen, is the model's choice (log entry 7). -/
def Obligations.NewResetsEverything : Prop :=
  (∀ s : State, s.state ≠ .running → hostDo .new s = .ok State.reset) ∧
  (∀ s : State, s.state = .running → hostDo .new s = .refused) ∧
  (∀ r : Reg, State.reset.reg r = 0#8) ∧ (∀ a : Nat, State.reset.mem.read a = 0#8) ∧
  (∀ k : Fin 16, State.reset.stack[k.val]'k.isLt = 0#16) ∧
  State.reset.pc = 0x200#16 ∧ State.reset.wc = 0x200#16 ∧ State.reset.sp.val = 0 ∧
  State.reset.state = .ready ∧ State.reset.fault.code = .noFault ∧ State.reset.fault.addr = 0#16 ∧
  State.reset.fault.word = 0#16

/-- Run-state transitions are those of R37 and no others: reset to READY; `run` from READY or HALTED to RUNNING; a step
from RUNNING to RUNNING, HALTED where it ran HALT, or FAULTED; another host operation from READY or HALTED, which stays
or goes to FAULTED; and in FAULTED only reset has an effect (the spec's own decisions D14, D15 and D18). -/
def Obligations.RunStateTransitions : Prop :=
  ∀ (e : Event) (s t : State), after e s = some t →
    (e = .host .new ∧ s.state ≠ .running ∧ t.state = .ready) ∨
    (e = .startRun ∧ (s.state = .ready ∨ s.state = .halted) ∧ t.state = .running) ∨
    (e = .step ∧ s.state = .running ∧
      (t.state = .running ∨ (t.state = .halted ∧ Fetches s .halt) ∨
        (t.state = .faulted ∧ t.fault.code ≠ .noFault))) ∨
    ((∃ op, op ≠ .new ∧ e = .host op) ∧ (s.state = .ready ∨ s.state = .halted) ∧
      (SameStatus s t ∨ (t.state = .faulted ∧ t.fault.code ≠ .noFault)))

/-- A latched fault is cleared by reset alone: in FAULTED a step, the start of a run and every host operation but reset
have no effect, `run` returns the latched fault without a step, and reset gives the reset state (R211, the spec's
own decision D14). -/
def Obligations.FaultIsSticky : Prop :=
  ∀ s : State, s.state = .faulted →
    (∀ e : Event, e ≠ .host .new → after e s = none) ∧
    (∀ op : HostOp, op ≠ .new → hostDo op s = .refused) ∧
    (∀ fuel : Nat, run fuel s = .err s.fault s) ∧ after (.host .new) s = some State.reset

/-- The latch changes only when a fault is raised, from a state that is not FAULTED to one that is, or on reset; so it
is written once and cleared only by reset (R38, the spec's own decisions D13 and D14). -/
def Obligations.LatchWrittenOnce : Prop :=
  ∀ (e : Event) (s t : State), after e s = some t → e ≠ .host .new → t.fault ≠ s.fault →
    s.state ≠ .faulted ∧ t.state = .faulted ∧ t.fault.code ≠ .noFault

/-- HALTED is left only by `run`, which resumes at pc with everything kept, or by reset; no step happens in it, and a
host write or a preset leaves it HALTED unless it faults (R223, the spec's own decision D15). -/
def Obligations.HaltedIsLeftByRunOrReset : Prop :=
  ∀ (e : Event) (s t : State), s.state = .halted → after e s = some t →
    (e = .startRun ∧ t = { s with state := .running }) ∨ (e = .host .new ∧ t = State.reset) ∨
    (∃ op, op ≠ .new ∧ e = .host op ∧ t.pc = s.pc ∧ (t.state = .halted ∨ t.state = .faulted))

/-- `run` from READY or HALTED returns at the first state after its start that is no longer RUNNING, Ok where it is
HALTED and the latched fault where it is FAULTED, and under fuel that is spent it leaves the RUNNING state reached,
with no fault of the model's own (R107, R108, R109). Running under fuel is the model's choice (log entry 7). -/
def Obligations.RunReturnsAtFirstStop : Prop :=
  ∀ (fuel : Nat) (s t : State), (s.state = .ready ∨ s.state = .halted) →
    (run fuel s = .ok t ↔
      ∃ n < fuel, core.run (n + 1) { s with state := .running } = .next t ∧ t.state = .halted) ∧
    (∀ f, run fuel s = .err f t ↔
      ∃ n < fuel, core.run (n + 1) { s with state := .running } = .next t ∧ t.state = .faulted ∧ t.fault = f) ∧
    (run fuel s = .outOfFuel t ↔ core.run fuel { s with state := .running } = .next t ∧ t.state = .running)

/-- A run need not end: JP to its own address repeats the same RUNNING state for ever, with no fault (R108). -/
def Obligations.SelfJumpNeverEnds : Prop :=
  ∀ (s : State) (nnn : Addr12), Fetches s (.jp nnn) → s.pc.toNat = nnn.toNat →
    ∀ n : Nat, core.run n s = .next s

/-! ## Invariants -/

/-- Every step keeps the invariant: canonical memory, pc at most 4098, wc at most 4096, dead slots zero, return
addresses at most 4096, and the latch agreeing with the run state (R27 and R31, the spec's own inferences, R35 and
R38). The canonical form of memory is the model's (log entry 4). -/
def Obligations.StepKeepsInvariant : Prop :=
  ∀ s t : State, Inv s → step s = .next t → Inv t

/-- The reset state meets the invariant (R41; log entry 4). -/
def Obligations.ResetMeetsInvariant : Prop := Inv State.reset

/-- Every state that host operations, runs and steps reach from reset, in any order, meets the invariant; so pc stays
in 0..4098 and never wraps (R27), slots at or above sp are 0 (R31), and wc stays in 0..4096 (R35). R27 and R31 are the
spec's own inferences; the canonical form of memory is the model's (log entry 4). -/
def Obligations.ReachableStatesMeetInvariant : Prop := ∀ s : State, Reachable s → Inv s
end

