-- ==== Sys2Proof/Laws/Encoding.lean ====
section
/-!
SUPPORT. The fields of a word (30_encoding.md R80 to R84): their values as naturals, how a word is put together from
them, what the opcode map's two masks keep, and that every instruction is well formed.
-/

namespace Sys2Proof

/-! ## Values -/

theorem toNat_append_eq {n m : Nat} (a : BitVec n) (b : BitVec m) :
    (a ++ b).toNat = a.toNat * 2 ^ m + b.toNat := by
  rw [BitVec.toNat_append, ← Nat.shiftLeft_add_eq_or_of_lt b.isLt, Nat.shiftLeft_eq]

theorem toNat_encodeRR (c x y d : BitVec 4) :
    (encodeRR c x y d).toNat = c.toNat * 4096 + x.toNat * 256 + y.toNat * 16 + d.toNat := by
  simp only [encodeRR, toNat_append_eq]; omega

theorem toNat_encodeRImm (c : BitVec 4) (x : Reg) (nn : Byte) :
    (encodeRImm c x nn).toNat = c.toNat * 4096 + x.toNat * 256 + nn.toNat := by
  simp only [encodeRImm, toNat_append_eq]; omega

theorem toNat_encodeAddr (c : BitVec 4) (nnn : Addr12) :
    (encodeAddr c nnn).toNat = c.toNat * 4096 + nnn.toNat := by
  simp only [encodeAddr, toNat_append_eq]; omega

theorem toNat_wordOfBytes (lo hi : Byte) : (wordOfBytes lo hi).toNat = hi.toNat * 256 + lo.toNat := by
  simp only [wordOfBytes, toNat_append_eq]; omega

theorem toNat_lowByte (w : Word) : (lowByte w).toNat = w.toNat % 256 := by
  simp [lowByte]

theorem toNat_highByte (w : Word) : (highByte w).toNat = w.toNat / 256 := by
  simp [highByte, Nat.shiftRight_eq_div_pow]; omega

theorem toNat_fieldC (w : Word) : (fieldC w).toNat = w.toNat / 4096 := by
  simp [fieldC, Nat.shiftRight_eq_div_pow]; omega

theorem toNat_fieldX (w : Word) : (fieldX w).toNat = w.toNat / 256 % 16 := by
  simp [fieldX, Nat.shiftRight_eq_div_pow]

theorem toNat_fieldY (w : Word) : (fieldY w).toNat = w.toNat / 16 % 16 := by
  simp [fieldY, Nat.shiftRight_eq_div_pow]

theorem toNat_fieldD (w : Word) : (fieldD w).toNat = w.toNat % 16 := by
  simp [fieldD]

theorem toNat_immediate8 (y d : BitVec 4) : (immediate8 y d).toNat = y.toNat * 16 + d.toNat := by
  simp only [immediate8, toNat_append_eq]; omega

theorem toNat_immediate12 (x y d : BitVec 4) :
    (immediate12 x y d).toNat = x.toNat * 256 + y.toNat * 16 + d.toNat := by
  simp only [immediate12, toNat_append_eq]; omega

theorem toNat_fieldNN (w : Word) : (fieldNN w).toNat = w.toNat % 256 := by
  rw [fieldNN, toNat_immediate8, toNat_fieldY, toNat_fieldD]; omega

theorem toNat_fieldNNN (w : Word) : (fieldNNN w).toNat = w.toNat % 4096 := by
  rw [fieldNNN, toNat_immediate12, toNat_fieldX, toNat_fieldY, toNat_fieldD]; omega

/-! ## Bytes -/

/-- Writing a word's two bytes and reading them back gives the word (R53). -/
theorem wordOfBytes_low_high (w : Word) : wordOfBytes (lowByte w) (highByte w) = w := by
  apply BitVec.eq_of_toNat_eq
  rw [toNat_wordOfBytes, toNat_lowByte, toNat_highByte]; omega

/-! ## Fields of the three formats -/

@[simp] theorem fieldC_encodeRR (c x y d : BitVec 4) : fieldC (encodeRR c x y d) = c := by
  apply BitVec.eq_of_toNat_eq
  rw [toNat_fieldC, toNat_encodeRR]; omega

@[simp] theorem fieldX_encodeRR (c x y d : BitVec 4) : fieldX (encodeRR c x y d) = x := by
  apply BitVec.eq_of_toNat_eq
  rw [toNat_fieldX, toNat_encodeRR]; omega

@[simp] theorem fieldY_encodeRR (c x y d : BitVec 4) : fieldY (encodeRR c x y d) = y := by
  apply BitVec.eq_of_toNat_eq
  rw [toNat_fieldY, toNat_encodeRR]; omega

@[simp] theorem fieldD_encodeRR (c x y d : BitVec 4) : fieldD (encodeRR c x y d) = d := by
  apply BitVec.eq_of_toNat_eq
  rw [toNat_fieldD, toNat_encodeRR]; omega

@[simp] theorem fieldC_encodeRImm (c : BitVec 4) (x : Reg) (nn : Byte) : fieldC (encodeRImm c x nn) = c := by
  apply BitVec.eq_of_toNat_eq
  rw [toNat_fieldC, toNat_encodeRImm]; omega

@[simp] theorem fieldX_encodeRImm (c : BitVec 4) (x : Reg) (nn : Byte) : fieldX (encodeRImm c x nn) = x := by
  apply BitVec.eq_of_toNat_eq
  rw [toNat_fieldX, toNat_encodeRImm]; omega

@[simp] theorem fieldNN_encodeRImm (c : BitVec 4) (x : Reg) (nn : Byte) : fieldNN (encodeRImm c x nn) = nn := by
  apply BitVec.eq_of_toNat_eq
  rw [toNat_fieldNN, toNat_encodeRImm]; omega

@[simp] theorem fieldC_encodeAddr (c : BitVec 4) (nnn : Addr12) : fieldC (encodeAddr c nnn) = c := by
  apply BitVec.eq_of_toNat_eq
  rw [toNat_fieldC, toNat_encodeAddr]; omega

@[simp] theorem fieldNNN_encodeAddr (c : BitVec 4) (nnn : Addr12) : fieldNNN (encodeAddr c nnn) = nnn := by
  apply BitVec.eq_of_toNat_eq
  rw [toNat_fieldNNN, toNat_encodeAddr]; omega

/-! ## A word is its fields -/

theorem encodeRR_fields (w : Word) : encodeRR (fieldC w) (fieldX w) (fieldY w) (fieldD w) = w := by
  apply BitVec.eq_of_toNat_eq
  rw [toNat_encodeRR, toNat_fieldC, toNat_fieldX, toNat_fieldY, toNat_fieldD]; omega

theorem encodeRImm_fields (w : Word) : encodeRImm (fieldC w) (fieldX w) (fieldNN w) = w := by
  apply BitVec.eq_of_toNat_eq
  rw [toNat_encodeRImm, toNat_fieldC, toNat_fieldX, toNat_fieldNN]; omega

theorem encodeAddr_fields (w : Word) : encodeAddr (fieldC w) (fieldNNN w) = w := by
  apply BitVec.eq_of_toNat_eq
  rw [toNat_encodeAddr, toNat_fieldC, toNat_fieldNNN]; omega

/-! ## Masks -/

/-- Which nibble each bit of a word made of nibbles belongs to. -/
theorem getLsbD_encodeRR (c x y d : BitVec 4) (i : Nat) :
    (encodeRR c x y d).getLsbD i =
      if i < 4 then d.getLsbD i
      else if i < 8 then y.getLsbD (i - 4)
      else if i < 12 then x.getLsbD (i - 8)
      else c.getLsbD (i - 12) := by
  unfold encodeRR
  rw [BitVec.getLsbD_append, BitVec.getLsbD_append, BitVec.getLsbD_append]
  by_cases h1 : i < 4
  · simp [h1]
  · by_cases h2 : i < 8
    · have : i - 4 < 4 := by omega
      simp [h1, h2, this]
    · have h2' : ¬ i - 4 < 4 := by omega
      by_cases h3 : i < 12
      · have : i - 8 < 4 := by omega
        simp [h1, h2, h2', h3, this, Nat.sub_sub]
      · have : ¬ i - 8 < 4 := by omega
        simp [h1, h2, h2', h3, this, Nat.sub_sub]

/-- The mask 0xF000 keeps C alone. -/
theorem and_F000 (w : Word) : w &&& 0xF000#16 = encodeRR (fieldC w) 0#4 0#4 0#4 := by
  apply BitVec.eq_of_getLsbD_eq
  intro i hi
  rw [getLsbD_encodeRR]
  interval_cases i <;> simp [fieldC]

/-- The mask 0xF00F keeps C and D. -/
theorem and_F00F (w : Word) : w &&& 0xF00F#16 = encodeRR (fieldC w) 0#4 0#4 (fieldD w) := by
  apply BitVec.eq_of_getLsbD_eq
  intro i hi
  rw [getLsbD_encodeRR]
  interval_cases i <;> simp [fieldC, fieldD]

/-- The mask 0xFFFF keeps everything. -/
theorem and_FFFF (w : Word) : w &&& 0xFFFF#16 = w := BitVec.and_allOnes

/-- Two words made of nibbles are equal exactly where all four nibbles are. -/
theorem encodeRR_inj (c x y d c' x' y' d' : BitVec 4) :
    encodeRR c x y d = encodeRR c' x' y' d' ↔ c = c' ∧ x = x' ∧ y = y' ∧ d = d' := by
  constructor
  · intro h
    refine ⟨?_, ?_, ?_, ?_⟩
    · simpa using congrArg fieldC h
    · simpa using congrArg fieldX h
    · simpa using congrArg fieldY h
    · simpa using congrArg fieldD h
  · rintro ⟨rfl, rfl, rfl, rfl⟩; rfl

/-- A word matches a row whose mask is 0xF000 exactly where its C is the row's (R86). -/
theorem matches_F000 (w : Word) (c : BitVec 4) :
    w &&& 0xF000#16 = encodeRR c 0#4 0#4 0#4 ↔ fieldC w = c := by
  rw [and_F000, encodeRR_inj]; simp

/-- A word matches a row whose mask is 0xF00F exactly where its C and D are the row's (R86). -/
theorem matches_F00F (w : Word) (c d : BitVec 4) :
    w &&& 0xF00F#16 = encodeRR c 0#4 0#4 d ↔ fieldC w = c ∧ fieldD w = d := by
  rw [and_F00F, encodeRR_inj]; simp

/-! ## The decoder, family by family (R87, R89) -/

theorem decode_C0 {w : Word} (h : fieldC w = 0x0#4) : decode w = decodeFix w := by simp [decode, h]
theorem decode_C1 {w : Word} (h : fieldC w = 0x1#4) : decode w = .instr (.jp (fieldNNN w)) := by simp [decode, h]
theorem decode_C2 {w : Word} (h : fieldC w = 0x2#4) : decode w = .instr (.call (fieldNNN w)) := by simp [decode, h]
theorem decode_C3 {w : Word} (h : fieldC w = 0x3#4) : decode w = .instr (.seImm (fieldX w) (fieldNN w)) := by
  simp [decode, h]
theorem decode_C4 {w : Word} (h : fieldC w = 0x4#4) : decode w = .instr (.sneImm (fieldX w) (fieldNN w)) := by
  simp [decode, h]
theorem decode_C5 {w : Word} (h : fieldC w = 0x5#4) : decode w = decodeSkip .seReg w := by simp [decode, h]
theorem decode_C6 {w : Word} (h : fieldC w = 0x6#4) : decode w = .instr (.ldImm (fieldX w) (fieldNN w)) := by
  simp [decode, h]
theorem decode_C7 {w : Word} (h : fieldC w = 0x7#4) : decode w = .instr (.addImm (fieldX w) (fieldNN w)) := by
  simp [decode, h]
theorem decode_C8 {w : Word} (h : fieldC w = 0x8#4) : decode w = decodeAlu w := by simp [decode, h]
theorem decode_C9 {w : Word} (h : fieldC w = 0x9#4) : decode w = decodeSkip .sneReg w := by simp [decode, h]

/-- The families C = 0xA to 0xF hold nothing. -/
theorem decode_CA {w : Word} (h : 0xA ≤ (fieldC w).toNat) : decode w = .unrecognized w := by
  unfold decode
  split <;> first | omega | rfl

/-- A nibble is one of sixteen. -/
theorem nibble_cases (c : BitVec 4) :
    c = 0x0#4 ∨ c = 0x1#4 ∨ c = 0x2#4 ∨ c = 0x3#4 ∨ c = 0x4#4 ∨ c = 0x5#4 ∨ c = 0x6#4 ∨ c = 0x7#4 ∨ c = 0x8#4 ∨
      c = 0x9#4 ∨ c = 0xA#4 ∨ c = 0xB#4 ∨ c = 0xC#4 ∨ c = 0xD#4 ∨ c = 0xE#4 ∨ c = 0xF#4 := by
  revert c; decide

/-! ## Operands -/

/-- A register field is always a valid index (R22, R106). -/
theorem regIndexValid_field (x : Reg) : regIndexValid x.toNat = true := by
  have := x.isLt
  simp [regIndexValid]; omega

theorem immediateValid_field (nn : Byte) : immediateValid nn.toNat = true := by
  have := nn.isLt
  simp [immediateValid]; omega

theorem addressValid_field (nnn : Addr12) : addressValid nnn.toNat = true := by
  have := nnn.isLt
  simp [addressValid]; omega

/-- Every instruction is well formed: its operands have the fields' own widths. -/
theorem wellFormed_all (i : Instr) : i.wellFormed = true := by
  cases i <;>
    simp [Instr.wellFormed, regIndexValid_field, immediateValid_field, addressValid_field]

end Sys2Proof
end

