-- ==== Sys2Proof/Laws/Memory.lean ====
section
/-!
SUPPORT. Memory: what each operation does to every byte, in every memory, and that each keeps the canonical form.
-/

namespace Sys2Proof.Machine

/-! ## Reading -/

theorem read_filter_ne (m : Memory) (a b : Nat) :
    Memory.read (m.filter (fun c => c.1 != a)) b = if b = a then 0#8 else m.read b := by
  induction m with
  | nil => simp [Memory.read]
  | cons c m ih =>
    obtain ⟨k, v⟩ := c
    by_cases hk : k = a
    · subst hk
      simp only [List.filter_cons, bne_self_eq_false, Bool.false_eq_true, if_false, ih, Memory.read]
      by_cases hb : b = k
      · simp [hb]
      · simp [hb, Ne.symm hb]
    · have : (k != a) = true := by simp [hk]
      simp only [List.filter_cons, this, if_true, Memory.read, ih]
      by_cases hb : b = a
      · subst hb; simp [hk]
      · simp [hb]

theorem read_erase (m : Memory) (a b : Nat) :
    (m.erase a).read b = if b = a then 0#8 else m.read b := read_filter_ne m a b

theorem read_insert (m : Memory) (a b : Nat) (v : Byte) (h : ∀ c ∈ m, c.1 ≠ a) :
    (m.insert a v).read b = if b = a then v else m.read b := by
  induction m with
  | nil => simp [Memory.insert, Memory.read, eq_comm]
  | cons c m ih =>
    obtain ⟨k, w⟩ := c
    have hk : k ≠ a := h (k, w) (by simp)
    have ih := ih (fun c hc => h c (by simp [hc]))
    by_cases hlt : a < k
    · simp [Memory.insert, hlt, Memory.read, eq_comm]
    · simp only [Memory.insert, hlt, if_false, Memory.read, ih]
      by_cases hb : k = b
      · subst hb; simp [hk]
      · simp [hb]

theorem erase_no_key (m : Memory) (a : Nat) : ∀ c ∈ m.erase a, c.1 ≠ a := by
  intro c hc
  simpa using (List.mem_filter.mp hc).2

/-- One byte written: that byte reads as written and every other byte as before, in every memory. -/
theorem read_write (m : Memory) (a b : Nat) (v : Byte) :
    (m.write a v).read b = if b = a then v else m.read b := by
  unfold Memory.write
  split
  · next hv => subst hv; exact read_erase m a b
  · rw [read_insert _ _ _ _ (erase_no_key m a), read_erase]
    split <;> rfl

/-- A word written: its two bytes, low byte at the lower address, and every other byte as before (R53). -/
theorem read_write2 (m : Memory) (a b : Nat) (v : Word) :
    (m.write2 a v).read b =
      if b = a then lowByte v else if b = a + 1 then highByte v else m.read b := by
  simp only [Memory.write2, read_write]
  by_cases h : b = a
  · subst h; simp
  · simp [h]

/-- Bytes written in a row: byte `k` at `a + k`, and every byte outside them as before (R60). -/
theorem read_writeBytes (m : Memory) (a b : Nat) (bs : List Byte) :
    (m.writeBytes a bs).read b =
      if h : a ≤ b ∧ b < a + bs.length then bs[b - a]'(by omega) else m.read b := by
  induction bs generalizing m a with
  | nil => simp [Memory.writeBytes]
  | cons v bs ih =>
    rw [Memory.writeBytes, ih]
    simp only [read_write, List.length_cons]
    by_cases hb : b = a
    · subst hb
      simp
    · by_cases hin : a + 1 ≤ b ∧ b < a + 1 + bs.length
      · have h2 : a ≤ b ∧ b < a + (bs.length + 1) := by omega
        have h3 : b - a = (b - (a + 1)) + 1 := by omega
        simp only [hin, h2, and_self, dite_true, h3, List.getElem_cons_succ]
      · have h2 : ¬ (a ≤ b ∧ b < a + (bs.length + 1)) := by omega
        rw [dif_neg hin, dif_neg h2, if_neg hb]

/-! ## The canonical form -/

/-- The canonical form as a proposition. -/
theorem wf_iff (m : Memory) :
    m.wf = true ↔ m.Pairwise (fun p q => p.1 < q.1) ∧ ∀ c ∈ m, c.2 ≠ 0#8 ∧ c.1 < 4096 := by
  simp [Memory.wf, List.all_eq_true]

theorem empty_wf : Memory.wf [] = true := by simp [Memory.wf]

theorem erase_wf {m : Memory} (a : Nat) (h : m.wf = true) : (m.erase a).wf = true := by
  rw [wf_iff] at h ⊢
  exact ⟨h.1.filter _, fun c hc => h.2 c (List.mem_filter.mp hc).1⟩

theorem mem_insert (m : Memory) (a : Nat) (v : Byte) (c : Host.Cell) :
    c ∈ m.insert a v ↔ c = (a, v) ∨ c ∈ m := by
  induction m with
  | nil => simp [Memory.insert]
  | cons d m ih =>
    obtain ⟨k, w⟩ := d
    unfold Memory.insert
    split
    · simp
    · simp only [List.mem_cons, ih]; tauto

theorem insert_sorted (m : Memory) (a : Nat) (v : Byte) (hs : m.Pairwise (fun p q => p.1 < q.1))
    (hn : ∀ c ∈ m, c.1 ≠ a) : (m.insert a v).Pairwise (fun p q => p.1 < q.1) := by
  induction m with
  | nil => simp [Memory.insert]
  | cons d m ih =>
    obtain ⟨k, w⟩ := d
    have hk : k ≠ a := hn (k, w) (by simp)
    obtain ⟨h1, h2⟩ := List.pairwise_cons.mp hs
    unfold Memory.insert
    split
    · next hlt =>
      refine List.pairwise_cons.mpr ⟨?_, hs⟩
      intro c hc
      rcases List.mem_cons.mp hc with rfl | hc
      · exact hlt
      · exact Nat.lt_trans hlt (h1 c hc)
    · next hlt =>
      refine List.pairwise_cons.mpr ⟨?_, ih h2 (fun c hc => hn c (by simp [hc]))⟩
      intro c hc
      rcases (mem_insert m a v c).mp hc with rfl | hc
      · show k < a
        omega
      · exact h1 c hc

theorem write_wf {m : Memory} {a : Nat} (v : Byte) (ha : a < 4096) (h : m.wf = true) :
    (m.write a v).wf = true := by
  unfold Memory.write
  split
  · exact erase_wf a h
  · next hv =>
    have he := (wf_iff _).mp (erase_wf a h)
    refine (wf_iff _).mpr ⟨insert_sorted _ _ _ he.1 (erase_no_key m a), ?_⟩
    intro c hc
    rcases (mem_insert _ a v c).mp hc with rfl | hc
    · exact ⟨hv, ha⟩
    · exact he.2 c hc

theorem write2_wf {m : Memory} {a : Nat} (v : Word) (ha : a + 1 < 4096) (h : m.wf = true) :
    (m.write2 a v).wf = true :=
  write_wf _ ha (write_wf _ (by omega) h)

theorem writeBytes_wf {m : Memory} {a : Nat} (bs : List Byte) (ha : a + bs.length ≤ 4096) (h : m.wf = true) :
    (m.writeBytes a bs).wf = true := by
  induction bs generalizing m a with
  | nil => exact h
  | cons v bs ih =>
    simp only [List.length_cons] at ha
    exact ih (by omega) (write_wf v (by omega) h)

/-- Everything `MemWrite` can do: the write in bounds, or nothing (R56). -/
theorem memWrite2_cases (m : Memory) (a : Nat) (v : Word) :
    (a ≤ 4094 ∧ memWrite2 m a v = some (m.write2 a v)) ∨ (4094 < a ∧ memWrite2 m a v = none) := by
  simp only [memWrite2, Config.MEM_SIZE]
  split
  · left; constructor
    · omega
    · rfl
  · right; constructor
    · omega
    · rfl

/-- Everything a 2-byte `MemRead` can do: the word in bounds, or nothing (R52, R55). -/
theorem memRead2_cases (m : Memory) (a : Nat) :
    (a ≤ 4094 ∧ memRead2 m a = some (wordOfBytes (m.read a) (m.read (a + 1)))) ∨
      (4094 < a ∧ memRead2 m a = none) := by
  simp only [memRead2, Config.MEM_SIZE]
  split
  · left; constructor
    · omega
    · rfl
  · right; constructor
    · omega
    · rfl

/-- `MemWrite` keeps the canonical form. -/
theorem memWrite2_wf {m m' : Memory} {a : Nat} {v : Word} (h : m.wf = true)
    (hw : memWrite2 m a v = some m') : m'.wf = true := by
  rcases memWrite2_cases m a v with ⟨ha, he⟩ | ⟨_, he⟩
  · rw [he] at hw
    cases hw
    exact write2_wf v (by omega) h
  · rw [he] at hw; cases hw

end Sys2Proof.Machine
end

