-- ==== Sys2Proof/Laws/State.lean ====
section
/-!
SUPPORT. What each update of the state does to each of its fields, so that no later proof unfolds a record update,
and what each field is after reset.
-/

namespace Sys2Proof.Machine

/-! ## Reset (R41) -/

@[simp] theorem reset_mem : State.reset.mem = [] := rfl
@[simp] theorem reset_pc : State.reset.pc = 0x200#16 := rfl
@[simp] theorem reset_wc : State.reset.wc = 0x200#16 := rfl
@[simp] theorem reset_sp : State.reset.sp = 0 := rfl
@[simp] theorem reset_state : State.reset.state = .ready := rfl
@[simp] theorem reset_fault : State.reset.fault = FaultLatch.cleared := rfl

/-! ## `setReg` -/

@[simp] theorem setReg_mem (s : State) (r : Reg) (v : Byte) : (s.setReg r v).mem = s.mem := rfl
@[simp] theorem setReg_pc (s : State) (r : Reg) (v : Byte) : (s.setReg r v).pc = s.pc := rfl
@[simp] theorem setReg_wc (s : State) (r : Reg) (v : Byte) : (s.setReg r v).wc = s.wc := rfl
@[simp] theorem setReg_sp (s : State) (r : Reg) (v : Byte) : (s.setReg r v).sp = s.sp := rfl
@[simp] theorem setReg_stack (s : State) (r : Reg) (v : Byte) : (s.setReg r v).stack = s.stack := rfl
@[simp] theorem setReg_state (s : State) (r : Reg) (v : Byte) : (s.setReg r v).state = s.state := rfl
@[simp] theorem setReg_fault (s : State) (r : Reg) (v : Byte) : (s.setReg r v).fault = s.fault := rfl

/-- Reading a register after one was written (R20, R21: one cell per index). -/
theorem reg_setReg (s : State) (r q : Reg) (v : Byte) :
    (s.setReg r v).reg q = if q = r then v else s.reg q := by
  unfold State.setReg State.reg
  by_cases h : q = r
  · subst h; simp
  · have hne : r.toNat ≠ q.toNat := fun e => h (BitVec.eq_of_toNat_eq e.symm)
    simp [h, hne]

@[simp] theorem reg_setReg_self (s : State) (r : Reg) (v : Byte) : (s.setReg r v).reg r = v := by
  simp [reg_setReg]

theorem reg_setReg_ne (s : State) {r q : Reg} (v : Byte) (h : q ≠ r) : (s.setReg r v).reg q = s.reg q := by
  simp [reg_setReg, h]

/-! ## `setFlag` -/

@[simp] theorem setFlag_mem (s : State) (v : Byte) : (s.setFlag v).mem = s.mem := rfl
@[simp] theorem setFlag_pc (s : State) (v : Byte) : (s.setFlag v).pc = s.pc := rfl
@[simp] theorem setFlag_wc (s : State) (v : Byte) : (s.setFlag v).wc = s.wc := rfl
@[simp] theorem setFlag_sp (s : State) (v : Byte) : (s.setFlag v).sp = s.sp := rfl
@[simp] theorem setFlag_stack (s : State) (v : Byte) : (s.setFlag v).stack = s.stack := rfl
@[simp] theorem setFlag_state (s : State) (v : Byte) : (s.setFlag v).state = s.state := rfl
@[simp] theorem setFlag_fault (s : State) (v : Byte) : (s.setFlag v).fault = s.fault := rfl

/-- Reading a register after the flag was written: the flag is register 15 (R21). -/
theorem reg_setFlag (s : State) (q : Reg) (v : Byte) :
    (s.setFlag v).reg q = if q = 15#4 then v else s.reg q := reg_setReg s 15#4 q v

/-! ## `setPc` and `advancePc` -/

@[simp] theorem setPc_mem (s : State) (t : Word) : (s.setPc t).mem = s.mem := rfl
@[simp] theorem setPc_x (s : State) (t : Word) : (s.setPc t).x = s.x := rfl
@[simp] theorem setPc_pc (s : State) (t : Word) : (s.setPc t).pc = t := rfl
@[simp] theorem setPc_wc (s : State) (t : Word) : (s.setPc t).wc = s.wc := rfl
@[simp] theorem setPc_sp (s : State) (t : Word) : (s.setPc t).sp = s.sp := rfl
@[simp] theorem setPc_stack (s : State) (t : Word) : (s.setPc t).stack = s.stack := rfl
@[simp] theorem setPc_state (s : State) (t : Word) : (s.setPc t).state = s.state := rfl
@[simp] theorem setPc_fault (s : State) (t : Word) : (s.setPc t).fault = s.fault := rfl
@[simp] theorem setPc_reg (s : State) (t : Word) (r : Reg) : (s.setPc t).reg r = s.reg r := rfl

@[simp] theorem advancePc_mem (s : State) : s.advancePc.mem = s.mem := rfl
@[simp] theorem advancePc_x (s : State) : s.advancePc.x = s.x := rfl
@[simp] theorem advancePc_pc (s : State) : s.advancePc.pc = s.pc + 2#16 := rfl
@[simp] theorem advancePc_wc (s : State) : s.advancePc.wc = s.wc := rfl
@[simp] theorem advancePc_sp (s : State) : s.advancePc.sp = s.sp := rfl
@[simp] theorem advancePc_stack (s : State) : s.advancePc.stack = s.stack := rfl
@[simp] theorem advancePc_state (s : State) : s.advancePc.state = s.state := rfl
@[simp] theorem advancePc_fault (s : State) : s.advancePc.fault = s.fault := rfl
@[simp] theorem advancePc_reg (s : State) (r : Reg) : s.advancePc.reg r = s.reg r := rfl

/-- After the fetch the instruction's address is the pc the fetch read (R24). -/
@[simp] theorem advancePc_insnAddr (s : State) : s.advancePc.insnAddr = s.pc := by
  simp [State.insnAddr]

/-! ## `raise` -/

@[simp] theorem raise_mem (s : State) (c : FaultCode) (a w : Word) : (s.raise c a w).mem = s.mem := rfl
@[simp] theorem raise_x (s : State) (c : FaultCode) (a w : Word) : (s.raise c a w).x = s.x := rfl
@[simp] theorem raise_pc (s : State) (c : FaultCode) (a w : Word) : (s.raise c a w).pc = s.pc := rfl
@[simp] theorem raise_wc (s : State) (c : FaultCode) (a w : Word) : (s.raise c a w).wc = s.wc := rfl
@[simp] theorem raise_sp (s : State) (c : FaultCode) (a w : Word) : (s.raise c a w).sp = s.sp := rfl
@[simp] theorem raise_stack (s : State) (c : FaultCode) (a w : Word) : (s.raise c a w).stack = s.stack := rfl
@[simp] theorem raise_state (s : State) (c : FaultCode) (a w : Word) : (s.raise c a w).state = .faulted := rfl
@[simp] theorem raise_fault (s : State) (c : FaultCode) (a w : Word) : (s.raise c a w).fault = ⟨c, a, w⟩ := rfl
@[simp] theorem raise_reg (s : State) (c : FaultCode) (a w : Word) (r : Reg) :
    (s.raise c a w).reg r = s.reg r := rfl

/-! ## Two states with the same components are one state -/

/-- Registers are compared by reading each of them. -/
theorem regs_ext {s t : State} (h : ∀ r : Reg, s.reg r = t.reg r) : s.x = t.x := by
  apply Vector.ext
  intro i hi
  have := h (BitVec.ofNat 4 i)
  simpa [State.reg, Nat.mod_eq_of_lt hi] using this

end Sys2Proof.Machine
end

