-- ==== Sys2Proof/Laws/Ops.lean ====
section
/-!
SUPPORT. One lemma per shared operation that says everything it can do, to be cited where the operation would be
unfolded: the fetch, a skip, the operand forms, the stack, an instruction, a step, the host
interface's run, a host operation.
-/

namespace Sys2Proof.Machine

/-! ## Fetch -/

/-- Everything a fetch can do: read the word at pc, or nothing above 4094 (R101, R102). -/
theorem fetchWord_cases (s : State) :
    (s.pc.toNat ≤ 4094 ∧
        s.fetchWord = some (wordOfBytes (s.mem.read s.pc.toNat) (s.mem.read (s.pc.toNat + 1)))) ∨
      (4094 < s.pc.toNat ∧ s.fetchWord = none) :=
  memRead2_cases s.mem s.pc.toNat

/-! ## Operand forms and skips -/

theorem source_reg (s : State) (y : Reg) : s.source (.reg y) = s.reg y := rfl

theorem source_imm (s : State) (nn : Byte) : s.source (.imm nn) = nn := rfl

theorem toNat_jumpTarget (nnn : Addr12) : (jumpTarget nnn).toNat = nnn.toNat := by
  have := nnn.isLt
  simp [jumpTarget]
  omega

/-- Everything a skip can do: move pc by 2, or nothing (R140). -/
theorem skipIf_eq (b : Bool) (s : State) :
    skipIf b s = .next { s with pc := if b then s.pc + 2#16 else s.pc } := by
  cases b <;> rfl

theorem operandsEqual_iff (x : Reg) (src : Source) (s : State) :
    operandsEqual x src s = true ↔ s.reg x = s.source src := by simp [operandsEqual]

/-! ## Flag conditions -/

theorem addOverflows_iff (a b : Byte) : addOverflows a b = true ↔ 255 < a.toNat + b.toNat := by
  simp [addOverflows]

theorem noBorrow_iff (a b : Byte) : noBorrow a b = true ↔ b.toNat ≤ a.toNat := by simp [noBorrow]

theorem reverseBorrows_iff (a b : Byte) : reverseBorrows a b = true ↔ b.toNat < a.toNat := by
  simp [reverseBorrows]

/-! ## Call stack -/

theorem getElem_stackPush (st : Vector Word 16) (a : Word) (p k : Fin 16) :
    (stackPush st a p)[k.val]'k.isLt = if k = p then a else st[k.val]'k.isLt := by
  unfold stackPush
  by_cases h : k = p
  · subst h; simp
  · have : p.val ≠ k.val := fun e => h (Fin.ext e.symm)
    simp [h, this]

theorem stackPop_fst (st : Vector Word 16) (p : Fin 16) : (stackPop st p).1 = st[p.val]'p.isLt := rfl

theorem getElem_stackPop (st : Vector Word 16) (p k : Fin 16) :
    ((stackPop st p).2)[k.val]'k.isLt = if k = p then 0#16 else st[k.val]'k.isLt := by
  unfold stackPop
  by_cases h : k = p
  · subst h; simp
  · have : p.val ≠ k.val := fun e => h (Fin.ext e.symm)
    simp [h, this]

/-- Everything RET can do: the fault, or the pop of slot sp - 1 (R122). -/
theorem execRet_cases (s : State) :
    (s.sp.val = 0 ∧ execRet s = .next (s.raise .stackUnderflow s.insnAddr 0x00EE#16)) ∨
      (∃ p : Fin 16, s.sp.val = p.val + 1 ∧
        execRet s = .next { s with
          sp := p.castSucc, pc := s.stack[p.val]'p.isLt, stack := (stackPop s.stack p).2 }) := by
  unfold execRet
  by_cases h : s.sp.val = 0
  · left; exact ⟨h, by rw [dif_pos h]; rfl⟩
  · right
    refine ⟨⟨s.sp.val - 1, by omega⟩, ?_, by rw [dif_neg h]; rfl⟩
    show s.sp.val = s.sp.val - 1 + 1
    omega

/-- Everything CALL can do: the push at slot sp, or the fault (R125). -/
theorem execCall_cases (nnn : Addr12) (s : State) :
    (∃ p : Fin 16, s.sp.val = p.val ∧
        execCall nnn s = .next { s with
          stack := stackPush s.stack s.pc p, sp := p.succ, pc := jumpTarget nnn }) ∨
      (s.sp.val = 16 ∧ execCall nnn s = .next (s.raise .stackOverflow s.insnAddr (encode (.call nnn)))) := by
  unfold execCall
  by_cases h : s.sp.val < 16
  · left; exact ⟨⟨s.sp.val, h⟩, rfl, by rw [dif_pos h]⟩
  · right; exact ⟨by omega, by rw [dif_neg h]⟩

/-! ## An instruction -/

/-- The state an instruction answers. -/
def execState (i : Instr) (s : State) : State :=
  match exec i s with
  | .next t => t
  | .fault _ => s
  | .refused _ => s

/-- Every instruction answers a next state: no meaning faults or refuses (R104). -/
theorem exec_eq_next (i : Instr) (s : State) : exec i s = .next (execState i s) := by
  cases i <;> simp only [execState, exec] <;>
    first
    | rfl
    | (rcases execRet_cases s with ⟨_, h⟩ | ⟨_, _, h⟩ <;> rw [h])
    | (rename_i nnn; rcases execCall_cases nnn s with ⟨_, _, h⟩ | ⟨_, h⟩ <;> rw [h])
    | (simp only [execAddReg, execSubnReg]; split <;> rfl)

/-! ## A step -/

/-- Everything a step can do from RUNNING: the fetch fault, the decode fault, or the instruction (R101, R215). -/
theorem step_running (s : State) (h : s.state = .running) :
    (4094 < s.pc.toNat ∧ step s = .next s.raiseFetch) ∨
      (∃ w v, s.pc.toNat ≤ 4094 ∧ s.fetchWord = some w ∧ decode w = .unrecognized v ∧
        step s = .next (s.raiseUnrecognized v)) ∨
      (∃ w i, s.pc.toNat ≤ 4094 ∧ s.fetchWord = some w ∧ decode w = .instr i ∧
        step s = exec i s.advancePc) := by
  rcases fetchWord_cases s with ⟨hle, hf⟩ | ⟨hgt, hf⟩
  · right
    cases hd : decode (wordOfBytes (s.mem.read s.pc.toNat) (s.mem.read (s.pc.toNat + 1))) with
    | instr i => right; exact ⟨_, i, hle, hf, hd, by simp [step, h, hf, hd]⟩
    | unrecognized v => left; exact ⟨_, v, hle, hf, hd, by simp [step, h, hf, hd]⟩
  · left; exact ⟨hgt, by simp [step, h, hf]⟩

/-- A step that answers a next state was taken in RUNNING (R100). -/
theorem running_of_step {s t : State} (h : step s = .next t) : s.state = .running := by
  unfold step at h
  split at h
  · cases h
  · cases h
  · cases h
  · assumption

/-! ## The interface's run -/

theorem core_run_zero (s : State) : core.run 0 s = .next s := rfl

/-- A run goes on from the state its first step gives. -/
theorem core_run_next (n : Nat) {s t : State} (h : step s = .next t) : core.run (n + 1) s = core.run n t := by
  have unroll : ∀ (M : Host.Core) (s t : M.State), M.step s = .next t → M.run (n + 1) s = M.run n t := by
    intro M s t h
    simp only [Host.Core.run, h]
  exact unroll core s t h

/-- Where no step is enabled, a run of one step or more gives no next state. -/
theorem core_run_stopped (n : Nat) {s : State} (h : s.state ≠ .running) (t : State) :
    core.run (n + 1) s ≠ .next t := by
  have unroll : ∀ (M : Host.Core) (s t : M.State),
      (∀ u, M.step s ≠ .next u) → M.run (n + 1) s ≠ .next t := by
    intro M s t hn
    rw [Host.Core.run]
    cases hs : M.step s with
    | next u => exact absurd hs (hn u)
    | fault r => simp
    | refused r => simp
  exact unroll core s t fun u hu => h (running_of_step hu)

/-! ## Host operations -/

theorem acceptsWrites_iff (s : State) : acceptsWrites s = true ↔ s.state = .ready ∨ s.state = .halted := by
  unfold acceptsWrites
  split <;> simp_all

/-- Everything `set_opcode` can do (R58). -/
theorem hostSetOpcode_cases (w : Word) (s : State) :
    (acceptsWrites s = false ∧ hostSetOpcode w s = .refused) ∨
      (acceptsWrites s = true ∧ 4094 < s.wc.toNat ∧
        hostSetOpcode w s = hostRaise s .addressOutOfBounds s.wc w) ∨
      (acceptsWrites s = true ∧ s.wc.toNat ≤ 4094 ∧
        hostSetOpcode w s = .ok { s with mem := s.mem.write2 s.wc.toNat w, wc := s.wc + 2#16 }) := by
  unfold hostSetOpcode
  cases hacc : acceptsWrites s with
  | false => left; simp
  | true =>
    right
    rcases memWrite2_cases s.mem s.wc.toNat w with ⟨hle, hm⟩ | ⟨hgt, hm⟩
    · right; simp [hle, hm]
    · left; simp [hgt, hm]

/-- Everything `write_into` can do (R59). -/
theorem hostWriteInto_cases (w a : Word) (s : State) :
    (acceptsWrites s = false ∧ hostWriteInto w a s = .refused) ∨
      (acceptsWrites s = true ∧ 4094 < a.toNat ∧
        hostWriteInto w a s = hostRaise s .addressOutOfBounds a w) ∨
      (acceptsWrites s = true ∧ a.toNat ≤ 4094 ∧
        hostWriteInto w a s = .ok { s with mem := s.mem.write2 a.toNat w }) := by
  unfold hostWriteInto
  cases hacc : acceptsWrites s with
  | false => left; simp
  | true =>
    right
    rcases memWrite2_cases s.mem a.toNat w with ⟨hle, hm⟩ | ⟨hgt, hm⟩
    · right; simp [hle, hm]
    · left; simp [hgt, hm]

/-- Everything `load` can do (R60). -/
theorem hostLoad_cases (bs : List Byte) (s : State) :
    (acceptsWrites s = false ∧ hostLoad bs s = .refused) ∨
      (acceptsWrites s = true ∧ 3584 < bs.length ∧
        hostLoad bs s = hostRaise s .addressOutOfBounds 0x1000#16 0#16) ∨
      (acceptsWrites s = true ∧ bs.length ≤ 3584 ∧
        hostLoad bs s = .ok { s with mem := s.mem.writeBytes 0x200 bs }) := by
  unfold hostLoad
  cases hacc : acceptsWrites s with
  | false => left; simp
  | true =>
    right
    by_cases h : 3584 < bs.length
    · left; simp [h]
    · right; exact ⟨rfl, by omega, by simp [h]⟩

/-- Everything `set_register` can do (R243). -/
theorem hostSetRegister_cases (i : Nat) (v : Byte) (s : State) :
    (acceptsWrites s = false ∧ hostSetRegister i v s = .refused) ∨
      (acceptsWrites s = true ∧ 16 ≤ i ∧
        hostSetRegister i v s =
          hostRaise s .registerIndexOutOfRange (BitVec.ofNat 16 i) (v.zeroExtend 16)) ∨
      (acceptsWrites s = true ∧ i < 16 ∧ hostSetRegister i v s = .ok (s.setReg (BitVec.ofNat 4 i) v)) := by
  unfold hostSetRegister
  cases hacc : acceptsWrites s with
  | false => left; simp
  | true =>
    right
    by_cases h : i < 16
    · right; simp [h, regIndexValid]
    · left; exact ⟨rfl, by omega, by simp [h, regIndexValid]⟩

end Sys2Proof.Machine
end

