-- ==== Sys2Proof/Laws/PerInstr.lean ====
section
/-!
SUPPORT. A family of statements made once per instruction: its encoding is in a row of the opcode table, and the
row builds the instruction back from the word (30_encoding.md R82, R86).
-/

namespace Sys2Proof.Laws.EncodedInRow

/-- The word of `i` matches a row of the table, and that row builds `i` from it. -/
def Statement (i : Instr) : Prop :=
  i.wellFormed = true ∧ ∃ r ∈ opcodeTable, r.matchesWord (encode i) = true ∧ r.build (encode i) = i

/-- A row of the table, given by its place, is enough. -/
theorem of_row {i : Instr} (n : Fin 19)
    (hm : (opcodeTable[n.val]'n.isLt).matchesWord (encode i) = true)
    (hb : (opcodeTable[n.val]'n.isLt).build (encode i) = i) : Statement i :=
  ⟨wellFormed_all i, _, List.getElem_mem _, hm, hb⟩

/-- The word of a row whose mask is 0xF000. -/
theorem match_F000 (w c : BitVec 16) (k : BitVec 4) (hc : c = encodeRR k 0#4 0#4 0#4) (h : fieldC w = k) :
    (w &&& 0xF000#16 == c) = true := by
  rw [hc, beq_iff_eq, matches_F000]; exact h

/-- The word of a row whose mask is 0xF00F. -/
theorem match_F00F (w c : BitVec 16) (k d : BitVec 4) (hc : c = encodeRR k 0#4 0#4 d) (h : fieldC w = k)
    (hd : fieldD w = d) : (w &&& 0xF00F#16 == c) = true := by
  rw [hc, beq_iff_eq, matches_F00F]; exact ⟨h, hd⟩

/-- What a row of format ADDR builds. -/
theorem build_addr (f : Addr12 → Instr) (c : BitVec 4) (nnn : Addr12) :
    f (fieldNNN (encodeAddr c nnn)) = f nnn := by simp

/-- What a row of format RIMM builds. -/
theorem build_rimm (f : Reg → Byte → Instr) (c : BitVec 4) (x : Reg) (nn : Byte) :
    f (fieldX (encodeRImm c x nn)) (fieldNN (encodeRImm c x nn)) = f x nn := by simp

/-- What a row of format RR builds. -/
theorem build_rr (f : Reg → Reg → Instr) (c : BitVec 4) (x y : Reg) (d : BitVec 4) :
    f (fieldX (encodeRR c x y d)) (fieldY (encodeRR c x y d)) = f x y := by simp

theorem halt : Statement .halt := of_row 0 (by decide) rfl

theorem ret : Statement .ret := of_row 1 (by decide) rfl

theorem jp (nnn : Addr12) : Statement (.jp nnn) :=
  of_row 2 (match_F000 _ _ 0x1#4 (by decide) (fieldC_encodeAddr _ _)) (build_addr .jp _ nnn)

theorem call (nnn : Addr12) : Statement (.call nnn) :=
  of_row 3 (match_F000 _ _ 0x2#4 (by decide) (fieldC_encodeAddr _ _)) (build_addr .call _ nnn)

theorem seImm (x : Reg) (nn : Byte) : Statement (.seImm x nn) :=
  of_row 4 (match_F000 _ _ 0x3#4 (by decide) (fieldC_encodeRImm _ _ _)) (build_rimm .seImm _ x nn)

theorem sneImm (x : Reg) (nn : Byte) : Statement (.sneImm x nn) :=
  of_row 5 (match_F000 _ _ 0x4#4 (by decide) (fieldC_encodeRImm _ _ _)) (build_rimm .sneImm _ x nn)

theorem seReg (x y : Reg) : Statement (.seReg x y) :=
  of_row 6 (match_F00F _ _ 0x5#4 0x0#4 (by decide) (fieldC_encodeRR _ _ _ _) (fieldD_encodeRR _ _ _ _))
    (build_rr .seReg _ x y _)

theorem ldImm (x : Reg) (nn : Byte) : Statement (.ldImm x nn) :=
  of_row 7 (match_F000 _ _ 0x6#4 (by decide) (fieldC_encodeRImm _ _ _)) (build_rimm .ldImm _ x nn)

theorem addImm (x : Reg) (nn : Byte) : Statement (.addImm x nn) :=
  of_row 8 (match_F000 _ _ 0x7#4 (by decide) (fieldC_encodeRImm _ _ _)) (build_rimm .addImm _ x nn)

theorem ldReg (x y : Reg) : Statement (.ldReg x y) :=
  of_row 9 (match_F00F _ _ 0x8#4 0x0#4 (by decide) (fieldC_encodeRR _ _ _ _) (fieldD_encodeRR _ _ _ _))
    (build_rr .ldReg _ x y _)

theorem orReg (x y : Reg) : Statement (.orReg x y) :=
  of_row 10 (match_F00F _ _ 0x8#4 0x1#4 (by decide) (fieldC_encodeRR _ _ _ _) (fieldD_encodeRR _ _ _ _))
    (build_rr .orReg _ x y _)

theorem andReg (x y : Reg) : Statement (.andReg x y) :=
  of_row 11 (match_F00F _ _ 0x8#4 0x2#4 (by decide) (fieldC_encodeRR _ _ _ _) (fieldD_encodeRR _ _ _ _))
    (build_rr .andReg _ x y _)

theorem xorReg (x y : Reg) : Statement (.xorReg x y) :=
  of_row 12 (match_F00F _ _ 0x8#4 0x3#4 (by decide) (fieldC_encodeRR _ _ _ _) (fieldD_encodeRR _ _ _ _))
    (build_rr .xorReg _ x y _)

theorem addReg (x y : Reg) : Statement (.addReg x y) :=
  of_row 13 (match_F00F _ _ 0x8#4 0x4#4 (by decide) (fieldC_encodeRR _ _ _ _) (fieldD_encodeRR _ _ _ _))
    (build_rr .addReg _ x y _)

theorem subReg (x y : Reg) : Statement (.subReg x y) :=
  of_row 14 (match_F00F _ _ 0x8#4 0x5#4 (by decide) (fieldC_encodeRR _ _ _ _) (fieldD_encodeRR _ _ _ _))
    (build_rr .subReg _ x y _)

theorem shr (x y : Reg) : Statement (.shr x y) :=
  of_row 15 (match_F00F _ _ 0x8#4 0x6#4 (by decide) (fieldC_encodeRR _ _ _ _) (fieldD_encodeRR _ _ _ _))
    (build_rr .shr _ x y _)

theorem subnReg (x y : Reg) : Statement (.subnReg x y) :=
  of_row 16 (match_F00F _ _ 0x8#4 0x7#4 (by decide) (fieldC_encodeRR _ _ _ _) (fieldD_encodeRR _ _ _ _))
    (build_rr .subnReg _ x y _)

theorem shl (x y : Reg) : Statement (.shl x y) :=
  of_row 17 (match_F00F _ _ 0x8#4 0xE#4 (by decide) (fieldC_encodeRR _ _ _ _) (fieldD_encodeRR _ _ _ _))
    (build_rr .shl _ x y _)

theorem sneReg (x y : Reg) : Statement (.sneReg x y) :=
  of_row 18 (match_F00F _ _ 0x9#4 0x0#4 (by decide) (fieldC_encodeRR _ _ _ _) (fieldD_encodeRR _ _ _ _))
    (build_rr .sneReg _ x y _)

end Sys2Proof.Laws.EncodedInRow
end

