-- ==== Sys2Proof/Tests/Slice0.lean ====
section
/-!
SUPPORT. Tests: each check of WellFormed refusing an ill-formed term, a decode of every constructor from bits written
out from 30_encoding.md, at most two single-step vectors per instruction from 95_test_vectors.md, host vectors, and for
every obligation with hypotheses a witness that meets them, one per clause, at the boundary values.
-/

namespace Sys2Proof.Tests

open Sys2Proof.Machine Sys2Proof.Safety

/-! ## Helpers -/

/-- The outcome is a next state with this property. -/
def nextIs (o : Host.Outcome State Fault Refusal) (p : State → Bool) : Bool :=
  match o with
  | .next t => p t
  | .fault _ => false
  | .refused _ => false

/-- RUNNING, the instruction word stored little-endian at `a`, pc = a, and all else at reset (95_test_vectors.md §0). -/
def at_ (a w : Nat) : State := ({ State.reset with pc := BitVec.ofNat 16 a } : State).withFetchWord 16 w

/-- `s` with a call stack of depth `n + 1` whose top slot is `v`. -/
def withTop (s : State) (n : Fin 16) (v : Word) : State :=
  { s with sp := n.succ, stack := s.stack.set n.val v n.isLt }

/-- READY, at reset, with pc = a. -/
def readyAt (a : Nat) : State := { State.reset with pc := BitVec.ofNat 16 a }

/-- The reset state in FAULTED after H5 of 95_test_vectors.md. -/
def afterH5 : State := State.reset.raise .addressOutOfBounds 0xFFF#16 0xBEEF#16

/-! ## WellFormed refuses what does not fit (R22, R83, R84, R93) -/

theorem test_wf_register_16_refused : regIndexValid 15 = true ∧ regIndexValid 16 = false := by decide
theorem test_wf_immediate_256_refused : immediateValid 255 = true ∧ immediateValid 256 = false := by decide
theorem test_wf_address_4096_refused : addressValid 4095 = true ∧ addressValid 4096 = false := by decide
theorem test_wf_shift_with_y_not_canonical :
    Instr.isCanonical (.shr 1#4 2#4) = false ∧ Instr.isCanonical (.shl 1#4 2#4) = false ∧
      Instr.isCanonical (.shr 1#4 0#4) = true := by decide

/-! ## Decoding, from the bits of R82 and R86: C, X, Y, D -/

theorem test_decode_halt : decode 0b0000000000000000#16 = .instr .halt := by decide
theorem test_decode_ret : decode 0b0000000011101110#16 = .instr .ret := by decide
theorem test_decode_jp : decode 0b0001101010111100#16 = .instr (.jp 0xABC#12) := by decide
theorem test_decode_call : decode 0b0010001000001100#16 = .instr (.call 0x20C#12) := by decide
theorem test_decode_seImm : decode 0b0011001101000010#16 = .instr (.seImm 3#4 0x42#8) := by decide
theorem test_decode_sneImm : decode 0b0100111110000001#16 = .instr (.sneImm 15#4 0x81#8) := by decide
theorem test_decode_seReg : decode 0b0101000100100000#16 = .instr (.seReg 1#4 2#4) := by decide
theorem test_decode_ldImm : decode 0b0110000000010010#16 = .instr (.ldImm 0#4 0x12#8) := by decide
theorem test_decode_addImm : decode 0b0111001000000011#16 = .instr (.addImm 2#4 0x03#8) := by decide
theorem test_decode_ldReg : decode 0b1000111100010000#16 = .instr (.ldReg 15#4 1#4) := by decide
theorem test_decode_orReg : decode 0b1000001110100001#16 = .instr (.orReg 3#4 0xA#4) := by decide
theorem test_decode_andReg : decode 0b1000101010110010#16 = .instr (.andReg 0xA#4 0xB#4) := by decide
theorem test_decode_xorReg : decode 0b1000010001010011#16 = .instr (.xorReg 4#4 5#4) := by decide
theorem test_decode_addReg : decode 0b1000011010010100#16 = .instr (.addReg 6#4 9#4) := by decide
theorem test_decode_subReg : decode 0b1000101010110101#16 = .instr (.subReg 0xA#4 0xB#4) := by decide
theorem test_decode_shr : decode 0b1000000100100110#16 = .instr (.shr 1#4 2#4) := by decide
theorem test_decode_subnReg : decode 0b1000101110100111#16 = .instr (.subnReg 0xB#4 0xA#4) := by decide
theorem test_decode_shl : decode 0b1000101010111110#16 = .instr (.shl 0xA#4 0xB#4) := by decide
theorem test_decode_sneReg : decode 0b1001000100100000#16 = .instr (.sneReg 1#4 2#4) := by decide

/-- D-ILL1 to D-ILL8, S-ILL1 and S-ILL2. -/
theorem test_decode_illegal : ([0x0001, 0x00E0, 0x0FFF, 0x8008, 0x800F, 0xA123, 0xFFFF, 0x00EF, 0x5121,
    0x912F] : List Word).all isIllegal = true := by decide

/-- The bytes `12 60` are LD V0, 0x12, and `60 12` are JP 0x260 (R61). -/
theorem test_decode_bytes_little_endian :
    decodeBytes [0x12#8, 0x60#8, 0xFF#8] = .decoded (.instr (.ldImm 0#4 0x12#8)) [0xFF#8] ∧
      decodeBytes [0x60#8, 0x12#8] = .decoded (.instr (.jp 0x260#12)) [] ∧
      decodeBytes [0x60#8] = .truncated [0x60#8] := by decide

theorem test_decodeTableWord :
    decodeTableWord 16 0x220C = some (.call 0x20C#12) ∧ decodeTableWord 16 0xFFFF = none := by decide

/-- The listings of 95_test_vectors.md P2 and P3. -/
theorem test_disassemble : disassemble 0x220C#16 = "CALL 0x20C" ∧ disassemble 0x6A3C#16 = "LD VA, 0x3C" ∧
    disassemble 0x8014#16 = "ADD V0, V1" ∧ disassemble 0x8ABE#16 = "SHL VA" ∧
      disassemble 0xFFFF#16 = ".word 0xFFFF" := by decide

/-- The rows' mnemonics stand in the order of spec/opcode_table.json. -/
theorem test_opcodeTable_mnemonics : opcodeTable.map (·.mnemonic) =
    ["HALT", "RET", "JP", "CALL", "SE", "SNE", "SE", "LD", "ADD", "LD", "OR", "AND", "XOR", "ADD", "SUB", "SHR", "SUBN",
      "SHL", "SNE"] := by decide

/-! ## Single steps (95_test_vectors.md parts 2 to 5) -/

/-- C-HALT1. -/
theorem test_halt : nextIs (step (at_ 0x200 0x0000)) (fun t => t.pc == 0x202#16 && t.state == .halted) = true := by
  decide

/-- C-RET1: returns, and the slot is cleared. -/
theorem test_ret : nextIs (step (withTop (at_ 0x212 0x00EE) 0 0x206#16))
    (fun t => t.pc == 0x206#16 && t.sp == 0 && t.stack == State.reset.stack) = true := by decide

/-- C-RET2: underflow. -/
theorem test_ret_underflow : nextIs (step (at_ 0x200 0x00EE))
    (fun t => t.pc == 0x202#16 && t.fault == ⟨.stackUnderflow, 0x200#16, 0x00EE#16⟩ && t.state == .faulted) = true := by
  decide

/-- C-JP3: target 0xFFF is accepted. -/
theorem test_jp_last : nextIs (step (at_ 0x200 0x1FFF))
    (fun t => t.pc == 0xFFF#16 && t.state == .running) = true := by decide

/-- C-JP5: an odd target. -/
theorem test_jp_odd : nextIs (step (at_ 0x200 0x1301)) (fun t => t.pc == 0x301#16) = true := by decide

/-- C-CALL2: the sixteenth call uses slot 15. -/
theorem test_call_slot_15 : nextIs (step (withTop (at_ 0x210 0x2300) 14 0x20A#16))
    (fun t => t.pc == 0x300#16 && t.sp == 16 && t.stack[15] == 0x212#16 && t.stack[14] == 0x20A#16) = true := by
  decide

/-- C-CALL3: overflow. -/
theorem test_call_overflow : nextIs (step (withTop (at_ 0x210 0x2300) 15 0x20A#16))
    (fun t => t.pc == 0x212#16 && t.sp == 16 && t.stack[15] == 0x20A#16 &&
      t.fault == ⟨.stackOverflow, 0x210#16, 0x2300#16⟩) = true := by decide

/-- S-SE1. -/
theorem test_seImm_skips : nextIs (step ((at_ 0x200 0x3342).setReg 3#4 0x42#8)) (fun t => t.pc == 0x204#16) = true := by
  decide

/-- S-END1: a taken skip at 4094 checks no bound. -/
theorem test_seImm_at_end : nextIs (step (at_ 0xFFE 0x3000))
    (fun t => t.pc == 0x1002#16 && t.state == .running) = true := by decide

/-- S-SNE1 and S-SNE2. -/
theorem test_sneImm : nextIs (step ((at_ 0x200 0x4342).setReg 3#4 0x41#8)) (fun t => t.pc == 0x204#16) = true ∧
    nextIs (step ((at_ 0x200 0x4342).setReg 3#4 0x42#8)) (fun t => t.pc == 0x202#16) = true := by decide

/-- S-SER1 and S-SER2. -/
theorem test_seReg :
    nextIs (step (((at_ 0x200 0x5120).setReg 1#4 7#8).setReg 2#4 7#8)) (fun t => t.pc == 0x204#16) = true ∧
      nextIs (step (((at_ 0x200 0x5120).setReg 1#4 7#8).setReg 2#4 8#8)) (fun t => t.pc == 0x202#16) = true := by
  decide

/-- S-SNER1 and S-SNER3. -/
theorem test_sneReg :
    nextIs (step (((at_ 0x200 0x9120).setReg 1#4 7#8).setReg 2#4 8#8)) (fun t => t.pc == 0x204#16) = true ∧
      nextIs (step ((at_ 0x200 0x9110).setReg 1#4 9#8)) (fun t => t.pc == 0x202#16) = true := by decide

/-- A-LD2. -/
theorem test_ldImm : nextIs (step (at_ 0x200 0x65FF)) (fun t => t.reg 5#4 == 0xFF#8 && t.pc == 0x202#16) = true := by
  decide

/-- D-F5: a fetch at an odd address. -/
theorem test_ldImm_odd_pc : nextIs (step (at_ 0x301 0x6005))
    (fun t => t.reg 0#4 == 0x05#8 && t.pc == 0x303#16) = true := by decide

/-- A-ADDI1: wraps, VF kept. -/
theorem test_addImm_wraps : nextIs (step (((at_ 0x200 0x7203).setReg 2#4 0xFE#8).setReg 15#4 0x55#8))
    (fun t => t.reg 2#4 == 0x01#8 && t.reg 15#4 == 0x55#8) = true := by decide

/-- A-LDR2: X = 15. -/
theorem test_ldReg_into_vf : nextIs (step (((at_ 0x200 0x8F10).setReg 1#4 0x77#8).setReg 15#4 0x01#8))
    (fun t => t.reg 15#4 == 0x77#8 && t.reg 1#4 == 0x77#8) = true := by decide

/-- A-OR1. -/
theorem test_orReg : nextIs
    (step ((((at_ 0x200 0x8011).setReg 0#4 0xF0#8).setReg 1#4 0x0F#8).setReg 15#4 0x55#8))
    (fun t => t.reg 0#4 == 0xFF#8 && t.reg 15#4 == 0x55#8) = true := by decide

/-- A-AND1. -/
theorem test_andReg : nextIs
    (step ((((at_ 0x200 0x8012).setReg 0#4 0x3C#8).setReg 1#4 0x0F#8).setReg 15#4 0x55#8))
    (fun t => t.reg 0#4 == 0x0C#8 && t.reg 15#4 == 0x55#8) = true := by decide

/-- A-XOR1. -/
theorem test_xorReg : nextIs
    (step ((((at_ 0x200 0x8013).setReg 0#4 0xFF#8).setReg 1#4 0x0F#8).setReg 15#4 0x55#8))
    (fun t => t.reg 0#4 == 0xF0#8 && t.reg 15#4 == 0x55#8) = true := by decide

/-- A-ADD2: the sum 255 is no overflow and VF is kept. -/
theorem test_addReg_255 : nextIs
    (step ((((at_ 0x200 0x8014).setReg 0#4 0x80#8).setReg 1#4 0x7F#8).setReg 15#4 0x07#8))
    (fun t => t.reg 0#4 == 0xFF#8 && t.reg 1#4 == 0x7F#8 && t.reg 15#4 == 0x07#8) = true := by decide

/-- A-ADD11: Y = 15 and overflow keeps Vx. -/
theorem test_addReg_overflow : nextIs (step (((at_ 0x200 0x80F4).setReg 0#4 0x10#8).setReg 15#4 0xF8#8))
    (fun t => t.reg 0#4 == 0x10#8 && t.reg 15#4 == 0x01#8) = true := by decide

/-- A-SUB2: borrow. -/
theorem test_subReg_borrow : nextIs
    (step ((((at_ 0x200 0x8015).setReg 0#4 0x03#8).setReg 1#4 0x05#8).setReg 15#4 0x55#8))
    (fun t => t.reg 0#4 == 0xFE#8 && t.reg 15#4 == 0x00#8) = true := by decide

/-- A-SUB7: X = 15. -/
theorem test_subReg_x_is_vf : nextIs (step (((at_ 0x200 0x8F15).setReg 15#4 0x05#8).setReg 1#4 0x03#8))
    (fun t => t.reg 15#4 == 0x01#8) = true := by decide

/-- A-SHR7: Y is ignored. -/
theorem test_shr_ignores_y : nextIs (step (((at_ 0x200 0x8126).setReg 1#4 0x05#8).setReg 2#4 0xAA#8))
    (fun t => t.reg 1#4 == 0x02#8 && t.reg 15#4 == 0x01#8 && t.reg 2#4 == 0xAA#8) = true := by decide

/-- A-SHR8: X = 15 ends as 0. -/
theorem test_shr_vf : nextIs (step ((at_ 0x200 0x8F06).setReg 15#4 0xFF#8)) (fun t => t.reg 15#4 == 0#8) = true := by
  decide

/-- A-SUBN1. -/
theorem test_subnReg : nextIs
    (step ((((at_ 0x200 0x8017).setReg 0#4 0x03#8).setReg 1#4 0x05#8).setReg 15#4 0x55#8))
    (fun t => t.reg 0#4 == 0x02#8 && t.reg 15#4 == 0x00#8) = true := by decide

/-- A-SUBN9: Y = 15, and Vx is kept where Vy < Vx. -/
theorem test_subnReg_borrow : nextIs (step (((at_ 0x200 0x80F7).setReg 0#4 0x05#8).setReg 15#4 0x03#8))
    (fun t => t.reg 0#4 == 0x05#8 && t.reg 15#4 == 0x01#8) = true := by decide

/-- A-SHL6: Y is ignored. -/
theorem test_shl_ignores_y : nextIs (step (((at_ 0x200 0x803E).setReg 0#4 0x41#8).setReg 3#4 0x99#8))
    (fun t => t.reg 0#4 == 0x82#8 && t.reg 15#4 == 0x00#8) = true := by decide

/-- A-SHL7: X = 15 with bit 7 set ends as 2. -/
theorem test_shl_vf : nextIs (step ((at_ 0x200 0x8F0E).setReg 15#4 0x80#8)) (fun t => t.reg 15#4 == 2#8) = true := by
  decide

/-- D-F2: a fetch at 4095. -/
theorem test_fetch_fault : nextIs (step { readyAt 0xFFF with state := .running })
    (fun t => t.pc == 0xFFF#16 && t.fault == ⟨.addressOutOfBounds, 0xFFF#16, 0#16⟩ && t.state == .faulted) = true := by
  decide

/-- D-ILL2. -/
theorem test_illegal_fault : nextIs (step (at_ 0x200 0x00E0))
    (fun t => t.pc == 0x202#16 && t.fault == ⟨.unrecognizedInstruction, 0x200#16, 0x00E0#16⟩) = true := by decide

/-! ## Host vectors (95_test_vectors.md part 6) -/

/-- H2. -/
theorem test_host_set_opcode :
    hostDo (.setOpcode 0x6012#16) State.reset =
      .ok { State.reset with mem := [(0x200, 0x12#8), (0x201, 0x60#8)], wc := 0x202#16 } := by decide

/-- H4: the last word of memory. -/
theorem test_host_write_into :
    hostDo (.writeInto 0xBEEF#16 0xFFE#16) State.reset =
      .ok { State.reset with mem := [(0xFFE, 0xEF#8), (0xFFF, 0xBE#8)] } := by decide

/-- H5. -/
theorem test_host_write_into_fault :
    hostDo (.writeInto 0xBEEF#16 0xFFF#16) State.reset =
      .err ⟨.addressOutOfBounds, 0xFFF#16, 0xBEEF#16⟩ afterH5 := by decide

/-- H9. -/
theorem test_host_load :
    hostDo (.load [0x60#8, 0x12#8]) State.reset =
      .ok { State.reset with mem := [(0x200, 0x60#8), (0x201, 0x12#8)] } := by decide

/-- H10 and H11. -/
theorem test_host_set_register :
    hostDo (.setRegister 15 7#8) State.reset = .ok (State.reset.setReg 15#4 7#8) ∧
      hostDo (.setRegister 16 7#8) State.reset =
        .err ⟨.registerIndexOutOfRange, 0x010#16, 7#16⟩ (State.reset.raise .registerIndexOutOfRange 0x010#16 7#16) := by
  decide

/-- H12, H13 and H14. -/
theorem test_host_after_fault :
    hostDo (.setOpcode 0x6000#16) afterH5 = .refused ∧ hostDo (.load [1#8]) afterH5 = .refused ∧
      run 5 afterH5 = .err ⟨.addressOutOfBounds, 0xFFF#16, 0xBEEF#16⟩ afterH5 ∧
      hostDo .new afterH5 = .ok State.reset := by decide

/-- E9: LD V0, 0x12 then the zero word, in two steps. -/
theorem test_run_e9 :
    (match run 2 { State.reset with mem := [(0x200, 0x12#8), (0x201, 0x60#8)] } with
      | .ok t => t.reg 0#4 == 18#8 && t.pc == 0x204#16 && t.state == .halted
      | .err _ _ => false
      | .outOfFuel _ => false
      | .refused => false) = true := by decide

/-- Observation is for the host between runs (R244). -/
theorem test_observe : observe State.reset = some State.reset ∧ observe (at_ 0x200 0) = none := by decide

/-- Writing the value an unlisted address reads as removes the entry. -/
theorem test_memory_canonical :
    Memory.write [(5, 1#8)] 5 0#8 = [] ∧ Memory.write [(5, 1#8)] 4 2#8 = [(4, 2#8), (5, 1#8)] ∧
      Memory.wf [(5, 0#8)] = false ∧ Memory.wf [(5, 1#8), (5, 2#8)] = false ∧ Memory.wf [(4096, 1#8)] = false := by
  decide

/-! ## Witnesses: every hypothesis of an obligation is met, clause by clause, at boundary values -/

/-! ### Encoding -/

theorem witness_EncodeInvertsDecode :
    decode 0x8126#16 = .instr (.shr 1#4 2#4) ∧ decode 0xFFFF#16 = .unrecognized 0xFFFF#16 := by decide

theorem witness_OpcodeMapDecides :
    (∃ r ∈ opcodeTable, r.matchesWord 0x9FF0#16 = true) ∧ (∀ r ∈ opcodeTable, r.matchesWord 0x9FF1#16 = false) := by
  decide

theorem witness_IllegalWordsAreExactlyThese :
    (at_ 0xFFE 0xA000).state = .running ∧ (at_ 0xFFE 0xA000).pc.toNat = 4094 ∧
      isIllegal (wordAtPc (at_ 0xFFE 0xA000)) = true := by decide

theorem witness_RegisterSkipsNeedZeroD :
    (fieldC 0x5121#16 = 0x5#4 ∧ fieldD 0x5121#16 ≠ 0x0#4) ∧ (fieldC 0x912F#16 = 0x9#4 ∧ fieldD 0x912F#16 ≠ 0x0#4) ∧
      (fieldC 0x5120#16 = 0x5#4 ∧ fieldD 0x5120#16 = 0x0#4) ∧ (fieldC 0x9120#16 = 0x9#4 ∧ fieldD 0x9120#16 = 0x0#4) := by
  decide

theorem witness_ReassemblyLosesOnlyShiftY :
    decode 0x803E#16 = .instr (.shl 0#4 3#4) ∧ Instr.isCanonical (.shl 0#4 3#4) = false ∧
      decode 0x8006#16 = .instr (.shr 0#4 0#4) ∧ Instr.isCanonical (.shr 0#4 0#4) = true := by decide

/-! ### Memory -/

theorem witness_WordWriteReadsBack : (4094 : Nat) ≤ 4094 ∧ memWrite2 [] 4094 0xBEEF#16 = some [(4094, 0xEF#8), (4095, 0xBE#8)] := by
  decide

theorem witness_AccessesStayInBounds :
    memRead2 [(4095, 7#8)] 4094 = some 0x0700#16 ∧ memRead2 [(4095, 7#8)] 4095 = none ∧
      memRead1 [(4095, 7#8)] 4095 = some 7#8 ∧ memRead1 [(4095, 7#8)] 4096 = none := by decide

/-- R54's example, and the last address the statement takes. -/
theorem witness_StraddledReadMixesWords : (4092 : Nat) ≤ 4092 ∧
    memRead2 (Memory.write2 (Memory.write2 [] 0x300 0x1234#16) 0x302 0x5678#16) 0x301 = some 0x7812#16 := by decide

theorem witness_OnlyHostWritesMemory :
    exec (.jp 0x300#12) State.reset = .next (State.reset.setPc 0x300#16) ∧
      (∃ t, after (.host (.setOpcode 0x6012#16)) State.reset = some t ∧ t.mem ≠ State.reset.mem) ∧
      (∃ t, after (.host (.writeInto 0xBEEF#16 0xFFE#16)) State.reset = some t ∧ t.mem ≠ State.reset.mem) ∧
      (∃ t, after (.host (.load [1#8])) State.reset = some t ∧ t.mem ≠ State.reset.mem) :=
  ⟨rfl, ⟨_, rfl, by decide⟩, ⟨_, rfl, by decide⟩, ⟨_, rfl, by decide⟩⟩

/-! ### The step -/

theorem witness_StepRunsDecodedInstruction :
    (at_ 0xFFE 0x6005).state = .running ∧ (at_ 0xFFE 0x6005).pc.toNat ≤ 4094 ∧
      decodeBytes ((at_ 0xFFE 0x6005).mem.read 0xFFE :: (at_ 0xFFE 0x6005).mem.read 0xFFF :: []) =
        .decoded (.instr (.ldImm 0#4 5#8)) [] := by decide

theorem witness_StepRunsEncodedInstruction :
    (at_ 0x200 0x220C).state = .running ∧ (at_ 0x200 0x220C).pc.toNat ≤ 4094 ∧
      [(at_ 0x200 0x220C).mem.read 0x200, (at_ 0x200 0x220C).mem.read 0x201] = encodeBytes (.call 0x20C#12) := by decide

theorem witness_FetchOutOfBoundsFaults :
    ({ readyAt 0xFFF with state := .running } : State).state = .running ∧
      4094 < ({ readyAt 0xFFF with state := .running } : State).pc.toNat := by decide

theorem fetchesIllegal_at_end : FetchesIllegal (at_ 0xFFE 0xFFFF) := ⟨rfl, by decide, by decide⟩

theorem witness_IllegalWordFaults : ∃ s, FetchesIllegal s := ⟨_, fetchesIllegal_at_end⟩

/-- Each of the three outcomes is taken. -/
theorem witness_StepHasThreeOutcomes :
    (nextIs (step (at_ 0x200 0x6012)) (fun t => t.state == .running) = true) ∧
      (nextIs (step (at_ 0x200 0x0000)) (fun t => t.state == .halted) = true) ∧
      (nextIs (step (at_ 0x200 0xFFFF)) (fun t => t.state == .faulted) = true) := by decide

theorem fetches_ret : Fetches (at_ 0x200 0x00EE) .ret := ⟨rfl, by decide, by decide⟩

theorem fetches_call_full : Fetches (withTop (at_ 0x210 0x2300) 15 0x20A#16) (.call 0x300#12) :=
  ⟨rfl, by decide, by decide⟩

/-- A faulting step for each of the four causes, and one that does not fault. -/
theorem witness_StepFaultsExactlyWhen :
    (nextIs (step { readyAt 0x1002 with state := .running }) (fun t => t.fault.code == .addressOutOfBounds) = true) ∧
      (nextIs (step (at_ 0xFFE 0xFFFF)) (fun t => t.fault.code == .unrecognizedInstruction) = true) ∧
      (nextIs (step (at_ 0x200 0x00EE)) (fun t => t.fault.code == .stackUnderflow) = true) ∧
      (nextIs (step (withTop (at_ 0x210 0x2300) 15 0x20A#16)) (fun t => t.fault.code == .stackOverflow) = true) ∧
      (nextIs (step (withTop (at_ 0x210 0x2300) 14 0x20A#16)) (fun t => t.state == .running) = true) := by decide

theorem witness_FaultsArePrecise :
    (nextIs (step (at_ 0x200 0x00EE)) (fun t => t.state == .faulted) = true) ∧
      (nextIs (step { readyAt 0xFFF with state := .running }) (fun t => t.state == .faulted) = true) ∧
      hostDo (.writeInto 0xBEEF#16 0xFFF#16) State.reset = .err ⟨.addressOutOfBounds, 0xFFF#16, 0xBEEF#16⟩ afterH5 := by
  decide

/-! ### The program counter and the registers -/

theorem witness_PcWrittenOnlyByTheseEvents :
    nextIs (exec (.seImm 0#4 0#8) State.reset) (fun t => t.pc != State.reset.pc) = true ∧
      nextIs (exec (.sneReg 0#4 1#4) (State.reset.setReg 0#4 1#8)) (fun t => t.pc != State.reset.pc) = true ∧
      nextIs (exec (.jp 0#12) State.reset) (fun t => t.pc != State.reset.pc) = true ∧
      nextIs (exec .ret (withTop State.reset 15 0x2A0#16)) (fun t => t.pc != State.reset.pc) = true ∧
      after (.host (.setRegister 0 1#8)) State.reset = some (State.reset.setReg 0#4 1#8) ∧
      after (.host .new) (readyAt 0x300) = some State.reset := by decide

theorem witness_RegistersWrittenAsTabled :
    exec (.addReg 0#4 1#4) State.reset = .next (State.reset.setReg 0#4 0#8) := rfl

/-- A register that is not read but written, and one that is neither. -/
theorem witness_RegistersReadAsTabled :
    (15#4 ∉ regsRead (.shr 0#4 3#4) ∧ 3#4 ∉ regsRead (.shr 0#4 3#4)) ∧
      exec (.shr 0#4 3#4) State.reset = .next ((State.reset.setFlag 0#8).setReg 0#4 0#8) :=
  ⟨by decide, rfl⟩

/-! ### Control transfer -/

theorem witness_RetPopsReturnAddress :
    (withTop (at_ 0x300 0x00EE) 15 0x2A0#16).sp.val = (15 : Fin 16).val + 1 ∧
      (withTop (at_ 0x300 0x00EE) 0 0x206#16).sp.val = (0 : Fin 16).val + 1 ∧
      Fetches (at_ 0x200 0x00EE) .ret ∧ (at_ 0x200 0x00EE).sp.val = 0 :=
  ⟨rfl, rfl, fetches_ret, rfl⟩

theorem witness_JpSetsPc : 0x1FFF#16 &&& 0xF000#16 = 0x1000#16 := by decide

theorem witness_CallPushesReturnAddress :
    0x220C#16 &&& 0xF000#16 = 0x2000#16 ∧ (at_ 0x204 0x220C).sp.val = (0 : Fin 16).val ∧
      (withTop (at_ 0x210 0x2300) 14 0x20A#16).sp.val = (15 : Fin 16).val ∧
      Fetches (withTop (at_ 0x210 0x2300) 15 0x20A#16) (.call 0x300#12) ∧
      (withTop (at_ 0x210 0x2300) 15 0x20A#16).sp.val = 16 :=
  ⟨by decide, rfl, rfl, fetches_call_full, rfl⟩

/-- `CALL 0x300` at 0x200, `LD V1, 0x07` at 0x300 and `RET` at 0x302. -/
def callProgram : State :=
  { State.reset with
    mem := [(0x201, 0x23#8), (0x300, 0x07#8), (0x301, 0x61#8), (0x302, 0xEE#8)]
    state := .running }

/-- `callProgram` after its CALL. -/
def inCallee : State :=
  { callProgram with pc := 0x300#16, sp := 1, stack := callProgram.stack.set 0 0x202#16 }

/-- `callProgram` at its RET. -/
def atRet : State := { inCallee with pc := 0x302#16, x := inCallee.x.set 1 7#8 }

theorem witness_CallAndRetPair :
    Fetches callProgram (.call 0x300#12) ∧ callProgram.sp.val < 16 ∧ step callProgram = .next inCallee ∧
      StepsAbove (callProgram.sp.val + 1) inCallee atRet ∧ Fetches atRet .ret ∧
      atRet.sp.val = callProgram.sp.val + 1 ∧ ∃ v, step atRet = .next v :=
  ⟨⟨rfl, by decide, by decide⟩, by decide, rfl,
    .step (t := atRet) (by decide) rfl (.refl _), ⟨rfl, by decide, by decide⟩, rfl, ⟨_, rfl⟩⟩

/-! ### Skips -/

theorem witness_skip_words :
    0x3342#16 &&& 0xF000#16 = 0x3000#16 ∧ 0x4342#16 &&& 0xF000#16 = 0x4000#16 ∧
      0x5120#16 &&& 0xF00F#16 = 0x5000#16 ∧ (0x5121#16 &&& 0xF000#16 = 0x5000#16 ∧ fieldD 0x5121#16 ≠ 0#4) ∧
      0x9120#16 &&& 0xF00F#16 = 0x9000#16 ∧ (0x912F#16 &&& 0xF000#16 = 0x9000#16 ∧ fieldD 0x912F#16 ≠ 0#4) := by decide

theorem witness_SkipDistanceIsFourOrTwo :
    Fetches (at_ 0xFFE 0x3000) (.seImm 0#4 0#8) ∧ Fetches (at_ 0xFFE 0x4000) (.sneImm 0#4 0#8) ∧
      Fetches (at_ 0xFFE 0x5010) (.seReg 0#4 1#4) ∧ Fetches (at_ 0xFFE 0x9010) (.sneReg 0#4 1#4) :=
  ⟨⟨rfl, by decide, by decide⟩, ⟨rfl, by decide, by decide⟩, ⟨rfl, by decide, by decide⟩, ⟨rfl, by decide, by decide⟩⟩

/-! ### Loads and arithmetic-logic -/

theorem witness_alu_words :
    0x65FF#16 &&& 0xF000#16 = 0x6000#16 ∧ 0x7203#16 &&& 0xF000#16 = 0x7000#16 ∧
      0x8010#16 &&& 0xF00F#16 = 0x8000#16 ∧ 0x8011#16 &&& 0xF00F#16 = 0x8001#16 ∧
      0x8012#16 &&& 0xF00F#16 = 0x8002#16 ∧ 0x8013#16 &&& 0xF00F#16 = 0x8003#16 ∧
      0x8014#16 &&& 0xF00F#16 = 0x8004#16 ∧ 0x8015#16 &&& 0xF00F#16 = 0x8005#16 ∧
      0x8126#16 &&& 0xF00F#16 = 0x8006#16 ∧ 0x8017#16 &&& 0xF00F#16 = 0x8007#16 ∧
      0x803E#16 &&& 0xF00F#16 = 0x800E#16 := by decide

/-- The sums 255 and 256. -/
theorem witness_AddRegistersSetsOverflowFlag :
    (((State.reset.setReg 0#4 0x80#8).setReg 1#4 0x7F#8).reg 0#4).toNat +
        (((State.reset.setReg 0#4 0x80#8).setReg 1#4 0x7F#8).reg 1#4).toNat = 255 ∧
      ((State.reset.setReg 0#4 0x80#8).reg 0#4).toNat + ((State.reset.setReg 0#4 0x80#8).reg 0#4).toNat = 256 := by
  decide

/-- Vy below, equal to and above Vx. -/
theorem witness_ReverseSubSetsBorrowFlag :
    ((State.reset.setReg 0#4 1#8).reg 1#4).toNat < ((State.reset.setReg 0#4 1#8).reg 0#4).toNat ∧
      (State.reset.reg 0#4).toNat ≤ (State.reset.reg 1#4).toNat ∧
      ((State.reset.setReg 1#4 1#8).reg 0#4).toNat ≤ ((State.reset.setReg 1#4 1#8).reg 1#4).toNat := by decide

/-- X = 15 and X ≠ 15, in the statements about SUB, SHR, SUBN and SHL. -/
theorem witness_flag_register_clauses : (14#4 : Reg) ≠ 15#4 ∧ (15#4 : Reg) = 15#4 := by decide

/-! ### The host interface -/

theorem witness_host_run_states :
    (at_ 0x200 0).state = .running ∧ afterH5.state = .faulted ∧ State.reset.state = .ready ∧
      ({ State.reset with state := .halted } : State).state = .halted := by decide

theorem witness_SetOpcodeAppendsWord :
    ({ State.reset with wc := 0xFFE#16 } : State).wc.toNat ≤ 4094 ∧
      4094 < ({ State.reset with wc := 0x1000#16 } : State).wc.toNat := by decide

theorem witness_WriteIntoStoresWord : (0xFFE#16).toNat ≤ 4094 ∧ 4094 < (0xFFF#16).toNat := by decide

theorem witness_HostWriteIsSeenByNextFetch :
    (readyAt 0xFFE).state = .ready ∧ (readyAt 0xFFE).pc.toNat ≤ 4094 ∧
      decode 0x6005#16 = .instr (.ldImm 0#4 5#8) := by decide

theorem witness_LoadCopiesBytes :
    3584 < (List.replicate 3585 (0xAA#8)).length ∧ (List.replicate 3584 (0xAA#8)).length ≤ 3584 ∧
      0 < [0x60#8, 0x12#8].length := by
  refine ⟨?_, ?_, by decide⟩
  · rw [List.length_replicate]; decide
  · rw [List.length_replicate]

theorem witness_SetRegisterPresets : 16 ≤ 16 ∧ (15#4 : Reg).toNat = 15 := by decide

theorem witness_NewResetsEverything : afterH5.state ≠ .running ∧ (at_ 0x200 0).state = .running := by decide

/-- An event of each kind that happens. -/
theorem witness_RunStateTransitions :
    (after (.host .new) afterH5).isSome = true ∧ (after .startRun State.reset).isSome = true ∧
      (after .step (at_ 0x200 0x6012)).isSome = true ∧
      (after (.host (.setOpcode 0x6012#16)) State.reset).isSome = true ∧
      (after (.host (.writeInto 0xBEEF#16 0xFFF#16)) State.reset).isSome = true := by decide

theorem witness_FaultIsSticky : afterH5.state = .faulted := rfl

/-- A step and a host operation that write the latch. -/
theorem witness_LatchWrittenOnce :
    (∃ t, after .step (at_ 0x200 0xFFFF) = some t ∧ t.fault ≠ (at_ 0x200 0xFFFF).fault) ∧
      (∃ t, after (.host (.writeInto 0xBEEF#16 0xFFF#16)) State.reset = some t ∧ t.fault ≠ State.reset.fault) :=
  ⟨⟨_, rfl, by decide⟩, ⟨_, rfl, by decide⟩⟩

theorem witness_HaltedIsLeftByRunOrReset :
    (after .startRun { State.reset with state := .halted }).isSome = true ∧
      (after (.host .new) { State.reset with state := .halted }).isSome = true ∧
      (after (.host (.setOpcode 0x6134#16)) { State.reset with state := .halted }).isSome = true := by decide

/-- READY and HALTED, with a run of each outcome: HALTED, FAULTED and out of fuel. -/
theorem witness_RunReturnsAtFirstStop :
    (∃ t, run 1 State.reset = .ok t) ∧
      (∃ f t, run 1 { State.reset with state := .halted, pc := 0xFFF#16 } = .err f t) ∧
      (∃ t, run 0 State.reset = .outOfFuel t) :=
  ⟨⟨_, rfl⟩, ⟨_, _, rfl⟩, ⟨_, rfl⟩⟩

theorem witness_SelfJumpNeverEnds :
    Fetches (at_ 0x200 0x1200) (.jp 0x200#12) ∧ (at_ 0x200 0x1200).pc.toNat = (0x200#12).toNat :=
  ⟨⟨rfl, by decide, by decide⟩, rfl⟩

/-! ### Invariants -/

theorem inv_of_jp : Inv (at_ 0x200 0x1FFF) where
  mem_wf := by decide
  pc_le := by decide
  wc_le := by decide
  dead := by intro k _; revert k; decide
  slots := by intro k; revert k; decide
  latch := And.intro (fun h => absurd h (by decide)) (fun _ => rfl)

theorem witness_StepKeepsInvariant : Inv (at_ 0x200 0x1FFF) ∧ ∃ t, step (at_ 0x200 0x1FFF) = .next t :=
  ⟨inv_of_jp, ⟨_, rfl⟩⟩

/-- A reachable state other than reset. -/
theorem witness_ReachableStatesMeetInvariant : Reachable afterH5 :=
  .event (.host (.writeInto 0xBEEF#16 0xFFF#16)) .reset (by decide)

end Sys2Proof.Tests
end

/-! # Proofs: the scope rules (00_scope.md) -/

section

namespace Sys2Proof.Machine

/-! ## One-byte reads -/

/-- The bound of a 1-byte access (20_memory.md R55): a read gives the byte up to 4095 and nothing above; the companion
of `memRead2_cases` and `memWrite2_cases`. -/
theorem memRead1_cases (m : Memory) (a : Nat) :
    (a ≤ 4095 ∧ memRead1 m a = some (m.read a)) ∨ (4095 < a ∧ memRead1 m a = none) := by
  by_cases h : a < Config.MEM_SIZE
  · exact .inl ⟨Nat.le_of_lt_succ h, if_pos h⟩
  · exact .inr ⟨Nat.le_of_not_lt h, if_neg h⟩

/-! ## Bounds of every access -/

/-- Settles O9: the three access primitives each have one bound, and `toNat_wordOfBytes` gives the value of the word a
2-byte read joins from its two bytes. -/
theorem accessesStayInBounds : Obligations.AccessesStayInBounds := by
  intro m a w
  refine ⟨?byteRead, ?wordOutOfBounds, ?wordRead⟩
  case byteRead =>
    rcases memRead1_cases m a with ⟨hle, hread⟩ | ⟨hgt, hread⟩
    · rw [hread, if_pos hle]
    · rw [hread, if_neg (Nat.not_le_of_gt hgt)]
  case wordOutOfBounds =>
    intro hgt
    have hread := (memRead2_cases m a).resolve_left fun h => Nat.not_le_of_gt hgt h.1
    have hwrite := (memWrite2_cases m a w).resolve_left fun h => Nat.not_le_of_gt hgt h.1
    exact ⟨hread.2, hwrite.2⟩
  case wordRead =>
    intro hle
    have hread := (memRead2_cases m a).resolve_right fun h => Nat.not_le_of_gt h.1 hle
    exact ⟨_, hread.2, toNat_wordOfBytes _ _⟩

end Sys2Proof.Machine
end

/-! # Proofs: the state (10_state.md) -/

section

namespace Sys2Proof.Machine

/-! ## Two writes to registers (R20, R21) -/

/-- The later of two writes to one register is the one that counts. -/
@[simp] theorem setReg_setReg_self (s : State) (r : Reg) (v w : Byte) :
    (s.setReg r v).setReg r w = s.setReg r w := by
  simp [State.setReg]

/-- Writes to two registers come to the same in either order. -/
theorem setReg_comm (s : State) {r q : Reg} (v w : Byte) (h : q ≠ r) :
    (s.setReg r v).setReg q w = (s.setReg q w).setReg r v := by
  have hne : r.toNat ≠ q.toNat := fun e => h (BitVec.eq_of_toNat_eq e.symm)
  simp only [State.setReg, Vector.set_comm _ _ hne]

/-! ## Cursors move by 2 without wrapping (R27, R35) -/

/-- A cursor inside memory moves by 2 without wrapping. -/
theorem toNat_add_two {c : Word} (h : c.toNat ≤ 4096) : (c + 2#16).toNat = c.toNat + 2 := by
  bv_omega

/-- A jump's target is inside memory (R84). -/
theorem jumpTarget_lt (nnn : Addr12) : (jumpTarget nnn).toNat < 4096 := by
  rw [toNat_jumpTarget]
  exact nnn.isLt

/-- Two states whose operands read alike compare them alike. -/
theorem operandsEqual_congr {s t : State} {x : Reg} {src : Source} (hx : t.reg x = s.reg x)
    (hsrc : t.source src = s.source src) : operandsEqual x src t = operandsEqual x src s := by
  rw [Bool.eq_iff_iff, operandsEqual_iff, operandsEqual_iff, hx, hsrc]

/-- The state an instruction's answer holds is `execState`. -/
theorem execState_of_exec {i : Instr} {s t : State} (h : exec i s = .next t) : execState i s = t := by
  simp only [execState, h]

/-- ADD Vx, Vy by its two cases (R172). -/
theorem execState_addReg (x y : Reg) (s : State) :
    execState (.addReg x y) s =
      if addOverflows (s.reg x) (s.reg y) then s.setFlag 1#8 else s.setReg x (s.reg x + s.reg y) :=
  execState_of_exec (apply_ite Host.Outcome.next ..).symm

/-- SUBN Vx, Vy by its two cases (R177). -/
theorem execState_subnReg (x y : Reg) (s : State) :
    execState (.subnReg x y) s =
      if reverseBorrows (s.reg x) (s.reg y) then s.setFlag 1#8
      else (s.setReg x (s.reg y - s.reg x)).setFlag 0#8 :=
  execState_of_exec (apply_ite Host.Outcome.next ..).symm

end Sys2Proof.Machine

namespace Sys2Proof.Safety

open Sys2Proof.Machine

/-! ## The frame of register writes -/

theorem OnlyRegs.refl (rs : List Reg) (s : State) : OnlyRegs rs s s :=
  ⟨fun _ _ => rfl, rfl, ⟨fun _ => rfl, rfl⟩, rfl, ⟨rfl, rfl⟩, rfl, rfl⟩

/-- One more write to a register of the list stays in the frame. -/
theorem OnlyRegs.setReg {rs : List Reg} {s t : State} (h : OnlyRegs rs s t) {r : Reg} (hr : r ∈ rs) (v : Byte) :
    OnlyRegs rs s (t.setReg r v) := by
  obtain ⟨hregs, hrest⟩ := h
  refine ⟨fun q hq => ?_, hrest⟩
  have hne : q ≠ r := fun e => hq (e ▸ hr)
  rw [reg_setReg_ne t v hne]
  exact hregs q hq

/-- The flag is register 15, so writing it stays in the frame where 15 is in the list. -/
theorem OnlyRegs.setFlag {rs : List Reg} {s t : State} (h : OnlyRegs rs s t) (hr : Config.FLAG_REG ∈ rs)
    (v : Byte) : OnlyRegs rs s (t.setFlag v) :=
  h.setReg hr v

/-! ## What an instruction can do -/

/-- The four conditional skips (42_skip.md). -/
def IsSkip (i : Instr) : Prop :=
  (∃ x nn, i = .seImm x nn ∨ i = .sneImm x nn) ∨ (∃ x y, i = .seReg x y ∨ i = .sneReg x y)

/-- Everything an instruction can do to the state after the fetch, by kind of effect: `execState_effect` ties it to
`exec`. -/
inductive ExecEffect : Instr → State → State → Prop where
  /-- Registers it may write are written, and nothing else; a skip that is not taken writes none. -/
  | regs {i : Instr} {s t : State} (frame : OnlyRegs (regsWritten i) s t) : ExecEffect i s t
  /-- A skip is taken (R140). -/
  | skip {i : Instr} {s : State} (hi : IsSkip i) : ExecEffect i s s.advancePc
  /-- HALT (R120). -/
  | halt {s : State} : ExecEffect .halt s { s with state := .halted }
  /-- JP (R123). -/
  | jump {nnn : Addr12} {s : State} : ExecEffect (.jp nnn) s (s.setPc (jumpTarget nnn))
  /-- CALL pushes at slot sp (R125). -/
  | push {nnn : Addr12} {s : State} {p : Fin 16} (hp : s.sp.val = p.val) : ExecEffect (.call nnn) s
      { s with stack := stackPush s.stack s.pc p, sp := p.succ, pc := jumpTarget nnn }
  /-- RET pops slot sp - 1 (R122). -/
  | pop {s : State} {p : Fin 16} (hp : s.sp.val = p.val + 1) : ExecEffect .ret s
      { s with sp := p.castSucc, pc := s.stack[p.val]'p.isLt, stack := (stackPop s.stack p).2 }
  /-- CALL or RET raises its fault (R205, R206, R214). -/
  | fault {i : Instr} {s : State} {code : FaultCode} {addr word : Word} (hc : code ≠ .noFault) :
      ExecEffect i s (s.raise code addr word)

/-- A skip's effect, whatever its condition. -/
theorem ExecEffect.skipIf {i : Instr} (hi : IsSkip i) (b : Bool) (s : State) :
    ExecEffect i s (if b then s.advancePc else s) := by
  cases b with
  | false => exact .regs (.refl _ s)
  | true => exact .skip hi

theorem execState_effect (i : Instr) (s : State) : ExecEffect i s (execState i s) := by
  have same : OnlyRegs (regsWritten i) s s := .refl _ s
  cases i with
  | halt => exact .halt
  | jp nnn => exact .jump
  | ret =>
    rcases execRet_cases s with ⟨-, hexec⟩ | ⟨p, hp, hexec⟩
    · rw [execState_of_exec (i := .ret) hexec]; exact .fault (by decide)
    · rw [execState_of_exec (i := .ret) hexec]; exact .pop hp
  | call nnn =>
    rcases execCall_cases nnn s with ⟨p, hp, hexec⟩ | ⟨-, hexec⟩
    · rw [execState_of_exec (i := .call nnn) hexec]; exact .push hp
    · rw [execState_of_exec (i := .call nnn) hexec]; exact .fault (by decide)
  | seImm x nn => exact .skipIf (.inl ⟨x, nn, .inl rfl⟩) _ s
  | sneImm x nn => exact .skipIf (.inl ⟨x, nn, .inr rfl⟩) _ s
  | seReg x y => exact .skipIf (.inr ⟨x, y, .inl rfl⟩) _ s
  | sneReg x y => exact .skipIf (.inr ⟨x, y, .inr rfl⟩) _ s
  | ldImm x _ | addImm x _ | ldReg x _ | orReg x _ | andReg x _ | xorReg x _ =>
    exact .regs (same.setReg (by simp [regsWritten]) _)
  | subReg x y => exact .regs ((same.setReg (by simp [regsWritten]) _).setFlag (by simp [regsWritten]) _)
  | shr x y | shl x y =>
    exact .regs ((same.setFlag (by simp [regsWritten]) _).setReg (by simp [regsWritten]) _)
  | addReg x y =>
    rw [execState_addReg]
    split
    · exact .regs (same.setFlag (by simp [regsWritten]) _)
    · exact .regs (same.setReg (by simp [regsWritten]) _)
  | subnReg x y =>
    rw [execState_subnReg]
    split
    · exact .regs (same.setFlag (by simp [regsWritten]) _)
    · exact .regs ((same.setReg (by simp [regsWritten]) _).setFlag (by simp [regsWritten]) _)

theorem exec_effect {i : Instr} {s t : State} (h : exec i s = .next t) : ExecEffect i s t :=
  execState_of_exec h ▸ execState_effect i s

/-! ## What a step can do -/

/-- The word a fetch reads is the word at pc (R101). -/
theorem fetches_of_fetchWord {s : State} {w : Word} {i : Instr} (hrun : s.state = .running)
    (hpc : s.pc.toNat ≤ 4094) (hw : s.fetchWord = some w) (hd : decode w = .instr i) : Fetches s i := by
  rcases fetchWord_cases s with ⟨-, hread⟩ | ⟨hgt, -⟩
  · have hword : w = wordAtPc s := Option.some.inj (hw.symm.trans hread)
    exact ⟨hrun, hpc, hword ▸ hd⟩
  · omega

/-- Everything a step can answer, with the instruction's effect on the state after the fetch (R101, R215). -/
theorem step_effect {s t : State} (h : step s = .next t) :
    (t = s.raiseFetch) ∨ (s.pc.toNat ≤ 4094 ∧ ∃ v, t = s.raiseUnrecognized v) ∨
      ∃ i, Fetches s i ∧ exec i s.advancePc = .next t := by
  have hrun := running_of_step h
  rcases step_running s hrun with ⟨-, hstep⟩ | ⟨w, v, hpc, -, -, hstep⟩ | ⟨w, i, hpc, hw, hd, hstep⟩
  · exact .inl (Host.Outcome.next.inj (h.symm.trans hstep))
  · exact .inr (.inl ⟨hpc, v, Host.Outcome.next.inj (h.symm.trans hstep)⟩)
  · exact .inr (.inr ⟨i, fetches_of_fetchWord hrun hpc hw hd, hstep.symm.trans h⟩)

/-! ## What keeps the invariant -/

theorem Inv.advancePc {s : State} (h : Inv s) (hpc : s.pc.toNat ≤ 4096) : Inv s.advancePc where
  mem_wf := h.mem_wf
  pc_le := by rw [advancePc_pc, toNat_add_two hpc]; omega
  wc_le := h.wc_le
  dead := h.dead
  slots := h.slots
  latch := h.latch

theorem Inv.setPc {s : State} (h : Inv s) {target : Word} (ht : target.toNat ≤ 4098) : Inv (s.setPc target) where
  mem_wf := h.mem_wf
  pc_le := ht
  wc_le := h.wc_le
  dead := h.dead
  slots := h.slots
  latch := h.latch

/-- Entering a fault writes the latch and makes the state FAULTED together (R214). -/
theorem Inv.raise {s : State} (h : Inv s) {code : FaultCode} (hc : code ≠ .noFault) (addr word : Word) :
    Inv (s.raise code addr word) where
  mem_wf := h.mem_wf
  pc_le := h.pc_le
  wc_le := h.wc_le
  dead := h.dead
  slots := h.slots
  latch := ⟨fun _ => hc, fun hne => absurd rfl hne⟩

/-- A change of run state that neither leaves nor enters FAULTED keeps the latch clear (R37, R38). -/
theorem Inv.setRunState {s : State} (h : Inv s) (hs : s.state ≠ .faulted) {r : RunState} (hr : r ≠ .faulted) :
    Inv { s with state := r } where
  mem_wf := h.mem_wf
  pc_le := h.pc_le
  wc_le := h.wc_le
  dead := h.dead
  slots := h.slots
  latch := ⟨fun hf => absurd hf hr, fun _ => h.latch.2 hs⟩

/-- The host's writes: the cells, the registers and wc (R58 to R60, R243). -/
theorem Inv.hostWrite {s : State} (h : Inv s) {m : Memory} (hm : m.wf = true) {c : Word} (hc : c.toNat ≤ 4096)
    (regs : Vector Byte 16) : Inv { s with mem := m, x := regs, wc := c } where
  mem_wf := hm
  pc_le := h.pc_le
  wc_le := hc
  dead := h.dead
  slots := h.slots
  latch := h.latch

theorem Inv.of_onlyRegs {s t : State} {rs : List Reg} (h : Inv s) (frame : OnlyRegs rs s t) : Inv t := by
  obtain ⟨-, hpc, ⟨-, hmem⟩, hwc, ⟨hsp, hstack⟩, hstate, hfault⟩ := frame
  constructor
  · rw [hmem]; exact h.mem_wf
  · rw [hpc]; exact h.pc_le
  · rw [hwc]; exact h.wc_le
  · unfold DeadSlotsZero; rw [hsp, hstack]; exact h.dead
  · unfold SlotsBounded; rw [hstack]; exact h.slots
  · unfold LatchAgrees; rw [hstate, hfault]; exact h.latch

/-- A push at slot sp leaves the slots above it zero and stores a return address of at most 4096 (R27, R31). -/
theorem Inv.push {s : State} (h : Inv s) (hpc : s.pc.toNat ≤ 4096) {p : Fin 16} (hp : s.sp.val = p.val) :
    Inv { s with stack := stackPush s.stack s.pc p, sp := p.succ } where
  mem_wf := h.mem_wf
  pc_le := h.pc_le
  wc_le := h.wc_le
  dead := by
    intro k hk
    have hlt : p.val + 1 ≤ k.val := hk
    have hne : k ≠ p := by rintro rfl; omega
    exact (getElem_stackPush s.stack s.pc p k).trans ((if_neg hne).trans (h.dead k (by omega)))
  slots := by
    intro k
    rw [getElem_stackPush]
    split
    · exact hpc
    · exact h.slots k
  latch := h.latch

/-- A pop clears the slot that sp comes down to (R30, R31). -/
theorem Inv.pop {s : State} (h : Inv s) {p : Fin 16} (hp : s.sp.val = p.val + 1) :
    Inv { s with sp := p.castSucc, stack := (stackPop s.stack p).2 } where
  mem_wf := h.mem_wf
  pc_le := h.pc_le
  wc_le := h.wc_le
  dead := by
    intro k hk
    have hle : p.val ≤ k.val := hk
    rw [getElem_stackPop]
    split
    · rfl
    · next hne => exact h.dead k (by have := Fin.val_ne_of_ne hne; omega)
  slots := by
    intro k
    rw [getElem_stackPop]
    split
    · exact Nat.zero_le _
    · exact h.slots k
  latch := h.latch

/-- Every instruction keeps the invariant from a state in which one can run: pc as the fetch leaves it, not FAULTED. -/
theorem Inv.exec {i : Instr} {s t : State} (h : Inv s) (hpc : s.pc.toNat ≤ 4096) (hs : s.state ≠ .faulted)
    (hexec : exec i s = .next t) : Inv t := by
  cases exec_effect hexec with
  | regs frame => exact h.of_onlyRegs frame
  | skip _ => exact h.advancePc hpc
  | halt => exact h.setRunState hs (by decide)
  | @jump nnn => exact h.setPc (by have := jumpTarget_lt nnn; omega)
  | @push nnn _ p hp => exact (h.push hpc hp).setPc (by have := jumpTarget_lt nnn; omega)
  | @pop _ p hp => exact (h.pop hp).setPc (by have := h.slots p; omega)
  | fault hc => exact h.raise hc _ _

theorem Inv.step {s t : State} (h : Inv s) (hstep : step s = .next t) : Inv t := by
  rcases step_effect hstep with rfl | ⟨hpc, v, rfl⟩ | ⟨i, ⟨hrun, hpc, -⟩, hexec⟩
  · exact h.raise (by decide) _ _
  · exact (h.advancePc (by omega)).raise (by decide) _ _
  · refine (h.advancePc (by omega)).exec ?_ ?_ hexec
    · rw [advancePc_pc, toNat_add_two (by omega)]; omega
    · rw [advancePc_state, hrun]; decide

/-- Settles O55: each of a step's outcomes is one of the operations above. -/
theorem stepKeepsInvariant : Obligations.StepKeepsInvariant :=
  fun _ _ h hstep => h.step hstep

/-! ## What an event can do -/

/-- Everything an event with an effect can do, by the rows of R37: `after_effect` ties it to `after`. -/
inductive EventEffect : Event → State → State → Prop where
  /-- A step. -/
  | step {s t : State} (hstep : Machine.step s = .next t) : EventEffect .step s t
  /-- A run starts. -/
  | startRun {s : State} (hs : s.state = .ready ∨ s.state = .halted) :
      EventEffect .startRun s { s with state := .running }
  /-- Reset. -/
  | reset {s : State} (hs : s.state ≠ .running) : EventEffect (.host .new) s State.reset
  /-- A host operation writes memory, registers or wc, none of them beyond its bounds. -/
  | hostWrite {op : HostOp} {s : State} {m : Memory} {regs : Vector Byte 16} {c : Word} (hop : op ≠ .new)
      (hs : s.state = .ready ∨ s.state = .halted) (hm : s.mem.wf = true → m.wf = true)
      (hc : s.wc.toNat ≤ 4096 → c.toNat ≤ 4096) :
      EventEffect (.host op) s { s with mem := m, x := regs, wc := c }
  /-- A host operation raises its fault (R209, R214). -/
  | hostFault {op : HostOp} {s : State} {code : FaultCode} {addr word : Word} (hop : op ≠ .new)
      (hs : s.state = .ready ∨ s.state = .halted) (hcode : code ≠ .noFault) :
      EventEffect (.host op) s (s.raise code addr word)

theorem after_step {s t : State} (h : after .step s = some t) : step s = .next t := by
  simp only [after] at h
  split at h
  · next hstep => rw [hstep, Option.some.inj h]
  · cases h
  · cases h

theorem startRun_effect {s t : State} (h : startRun s = some t) : EventEffect .startRun s t := by
  unfold Machine.startRun at h
  split at h
  · next hs => cases h; exact .startRun (.inl hs)
  · next hs => cases h; exact .startRun (.inr hs)
  · cases h
  · cases h

theorem hostNew_cases (s : State) :
    (s.state = .running ∧ hostNew s = .refused) ∨ (s.state ≠ .running ∧ hostNew s = .ok State.reset) := by
  unfold hostNew
  cases s.state with
  | running => exact .inl ⟨rfl, rfl⟩
  | ready | halted | faulted => exact .inr ⟨by decide, rfl⟩

/-- Everything a host operation other than reset can do, from its own lemma: nothing, its fault, or a write to memory,
registers or wc within their bounds (R58 to R60, R243). -/
theorem hostDo_cases {op : HostOp} (hop : op ≠ .new) (s : State) :
    hostDo op s = .refused ∨
      (acceptsWrites s = true ∧ ∃ code addr word, code ≠ .noFault ∧
        hostDo op s = hostRaise s code addr word) ∨
      (acceptsWrites s = true ∧ ∃ (m : Memory) (regs : Vector Byte 16) (c : Word),
        (s.mem.wf = true → m.wf = true) ∧ (s.wc.toNat ≤ 4096 → c.toNat ≤ 4096) ∧
          hostDo op s = .ok { s with mem := m, x := regs, wc := c }) := by
  cases op with
  | new => exact absurd rfl hop
  | load bytes =>
    rcases hostLoad_cases bytes s with ⟨-, hdo⟩ | ⟨hacc, -, hdo⟩ | ⟨hacc, hle, hdo⟩
    · exact .inl hdo
    · exact .inr (.inl ⟨hacc, _, _, _, by decide, hdo⟩)
    · exact .inr (.inr ⟨hacc, _, s.x, s.wc, writeBytes_wf bytes (by omega), id, hdo⟩)
  | setOpcode w =>
    rcases hostSetOpcode_cases w s with ⟨-, hdo⟩ | ⟨hacc, -, hdo⟩ | ⟨hacc, hle, hdo⟩
    · exact .inl hdo
    · exact .inr (.inl ⟨hacc, _, _, _, by decide, hdo⟩)
    · have hwc : (s.wc + 2#16).toNat ≤ 4096 := by rw [toNat_add_two (by omega)]; omega
      exact .inr (.inr ⟨hacc, _, s.x, _, write2_wf w (by omega), fun _ => hwc, hdo⟩)
  | writeInto w a =>
    rcases hostWriteInto_cases w a s with ⟨-, hdo⟩ | ⟨hacc, -, hdo⟩ | ⟨hacc, hle, hdo⟩
    · exact .inl hdo
    · exact .inr (.inl ⟨hacc, _, _, _, by decide, hdo⟩)
    · exact .inr (.inr ⟨hacc, _, s.x, s.wc, write2_wf w (by omega), id, hdo⟩)
  | setRegister i v =>
    rcases hostSetRegister_cases i v s with ⟨-, hdo⟩ | ⟨hacc, -, hdo⟩ | ⟨hacc, -, hdo⟩
    · exact .inl hdo
    · exact .inr (.inl ⟨hacc, _, _, _, by decide, hdo⟩)
    · exact .inr (.inr ⟨hacc, s.mem, _, s.wc, id, id, hdo⟩)

theorem after_host_of_ok {op : HostOp} {s u : State} (h : hostDo op s = .ok u) :
    after (.host op) s = some u := by
  simp only [after, h]

theorem after_host_of_raise {op : HostOp} {s : State} {code : FaultCode} {addr word : Word}
    (h : hostDo op s = hostRaise s code addr word) :
    after (.host op) s = some (s.raise code addr word) := by
  simp only [after, h, hostRaise]

theorem after_host_of_refused {op : HostOp} {s : State} (h : hostDo op s = .refused) :
    after (.host op) s = none := by
  simp only [after, h]

theorem after_host_effect {op : HostOp} {s t : State} (h : after (.host op) s = some t) :
    EventEffect (.host op) s t := by
  by_cases hop : op = .new
  · subst hop
    rcases hostNew_cases s with ⟨-, hdo⟩ | ⟨hs, hdo⟩
    · rw [after_host_of_refused (op := .new) hdo] at h; cases h
    · rw [after_host_of_ok (op := .new) hdo] at h; cases h; exact .reset hs
  · rcases hostDo_cases hop s with hdo | ⟨hacc, code, addr, word, hcode, hdo⟩ | ⟨hacc, m, regs, c, hm, hc, hdo⟩
    · rw [after_host_of_refused hdo] at h; cases h
    · rw [after_host_of_raise hdo] at h; cases h
      exact .hostFault hop ((acceptsWrites_iff s).mp hacc) hcode
    · rw [after_host_of_ok hdo] at h; cases h
      exact .hostWrite hop ((acceptsWrites_iff s).mp hacc) hm hc

theorem after_effect {e : Event} {s t : State} (h : after e s = some t) : EventEffect e s t := by
  cases e with
  | step => exact .step (after_step h)
  | startRun => exact startRun_effect h
  | host op => exact after_host_effect h

/-! ## Reachable states -/

/-- Settles O56: memory is empty, the cursors are at the program origin and every slot is 0. -/
theorem resetMeetsInvariant : Obligations.ResetMeetsInvariant where
  mem_wf := empty_wf
  pc_le := by decide
  wc_le := by decide
  dead := fun k _ => by simp [State.reset]
  slots := fun k => by simp [State.reset]
  latch := ⟨fun h => absurd h (by decide), fun _ => rfl⟩

/-- A state in which the host's operations are accepted is not FAULTED (R247). -/
theorem ne_faulted_of_ready_or_halted {s : State} (hs : s.state = .ready ∨ s.state = .halted) :
    s.state ≠ .faulted := by
  rcases hs with hs | hs <;> rw [hs] <;> decide

theorem Inv.after {e : Event} {s t : State} (h : Inv s) (he : after e s = some t) : Inv t := by
  cases after_effect he with
  | step hstep => exact h.step hstep
  | startRun hs => exact h.setRunState (ne_faulted_of_ready_or_halted hs) (by decide)
  | reset _ => exact resetMeetsInvariant
  | hostWrite _ _ hm hc => exact h.hostWrite (hm h.mem_wf) (hc h.wc_le) _
  | hostFault _ _ hcode => exact h.raise hcode _ _

/-- Settles O57, by induction on the events from reset. -/
theorem reachableStatesMeetInvariant : Obligations.ReachableStatesMeetInvariant := by
  intro s hreach
  induction hreach with
  | reset => exact resetMeetsInvariant
  | event e _ he ih => exact ih.after he

/-! ## The program counter (R25) -/

/-- The instructions that move pc from where the fetch left it, and where to. -/
theorem exec_pc_cases {i : Instr} {s t : State} (h : exec i s = .next t) (hne : t.pc ≠ s.pc) :
    (IsSkip i ∧ t.pc = s.pc + 2#16) ∨
      (∃ nnn : Addr12, (i = .jp nnn ∨ i = .call nnn) ∧ t.pc.toNat = nnn.toNat) ∨
      (i = .ret ∧ ∃ k : Fin 16, s.sp.val = k.val + 1 ∧ t.pc = s.stack[k.val]'k.isLt) := by
  cases exec_effect h with
  | regs frame =>
    obtain ⟨-, hpc, -⟩ := frame
    exact absurd hpc hne
  | halt | fault _ => exact absurd rfl hne
  | skip hi => exact .inl ⟨hi, rfl⟩
  | @jump nnn => exact .inr (.inl ⟨nnn, .inl rfl, toNat_jumpTarget nnn⟩)
  | @push nnn _ p _ => exact .inr (.inl ⟨nnn, .inr rfl, toNat_jumpTarget nnn⟩)
  | @pop _ p hp => exact .inr (.inr ⟨rfl, p, hp, rfl⟩)

/-- Settles O21, from what an instruction, a step and an event can do. -/
theorem pcWrittenOnlyByTheseEvents : Obligations.PcWrittenOnlyByTheseEvents := by
  refine ⟨fun i s t => exec_pc_cases, ?ofStep, ?ofOtherEvent, ?ofReset⟩
  case ofStep =>
    intro s t hstep
    rcases step_effect hstep with rfl | ⟨-, v, rfl⟩ | ⟨i, hfetch, hexec⟩
    · exact .inl rfl
    · exact .inr (.inl rfl)
    · exact .inr (.inr ⟨i, hfetch, hexec⟩)
  case ofOtherEvent =>
    intro e s t hstep he hnew
    cases after_effect he with
    | step _ => exact absurd rfl hstep
    | reset _ => exact absurd rfl hnew
    | startRun _ | hostWrite _ _ _ _ | hostFault _ _ _ => rfl
  case ofReset =>
    intro s t he
    cases after_effect he with
    | reset _ => rfl
    | hostWrite hop _ _ _ | hostFault hop _ _ => exact absurd rfl hop

/-! ## The run state and the latch (R37, R38) -/

/-- How a step leaves the run state and the latch: RUNNING or, by HALT, HALTED with the latch kept, or FAULTED with a
fault latched. -/
theorem step_status {s t : State} (h : step s = .next t) :
    (t.state = .running ∧ t.fault = s.fault) ∨ (t.state = .halted ∧ t.fault = s.fault ∧ Fetches s .halt) ∨
      (t.state = .faulted ∧ t.fault.code ≠ .noFault) := by
  rcases step_effect h with rfl | ⟨-, v, rfl⟩ | ⟨i, hfetch, hexec⟩
  · exact .inr (.inr ⟨rfl, FaultCode.noConfusion⟩)
  · exact .inr (.inr ⟨rfl, FaultCode.noConfusion⟩)
  · have hrun := running_of_step h
    cases exec_effect hexec with
    | regs frame =>
      obtain ⟨-, -, -, -, -, hstate, hfault⟩ := frame
      exact .inl ⟨(hstate.trans (advancePc_state s)).trans hrun, hfault⟩
    | halt => exact .inr (.inl ⟨rfl, rfl, hfetch⟩)
    | skip _ | jump | push _ | pop _ => exact .inl ⟨hrun, rfl⟩
    | fault hc => exact .inr (.inr ⟨rfl, hc⟩)

/-- Settles O49: each kind of event is one row of R37. -/
theorem runStateTransitions : Obligations.RunStateTransitions := by
  intro e s t he
  cases after_effect he with
  | reset hs => exact .inl ⟨rfl, hs, rfl⟩
  | startRun hs => exact .inr (.inl ⟨rfl, hs, rfl⟩)
  | step hstep =>
    refine .inr (.inr (.inl ⟨rfl, running_of_step hstep, ?_⟩))
    exact (step_status hstep).imp And.left (Or.imp_left fun ⟨hhalted, _, hfetch⟩ => ⟨hhalted, hfetch⟩)
  | hostWrite hop hs _ _ => exact .inr (.inr (.inr ⟨⟨_, hop, rfl⟩, hs, .inl ⟨rfl, rfl⟩⟩))
  | hostFault hop hs hcode => exact .inr (.inr (.inr ⟨⟨_, hop, rfl⟩, hs, .inr ⟨rfl, hcode⟩⟩))

/-- Settles O51: of the events other than reset, only one that enters FAULTED touches the latch. -/
theorem latchWrittenOnce : Obligations.LatchWrittenOnce := by
  intro e s t he hnew hne
  cases after_effect he with
  | reset _ => exact absurd rfl hnew
  | startRun _ | hostWrite _ _ _ _ => exact absurd rfl hne
  | hostFault _ hs hcode => exact ⟨ne_faulted_of_ready_or_halted hs, rfl, hcode⟩
  | step hstep =>
    rcases step_status hstep with ⟨-, hkept⟩ | ⟨-, hkept, -⟩ | hfaulted
    · exact absurd hkept hne
    · exact absurd hkept hne
    · have hrun := running_of_step hstep
      exact ⟨by rw [hrun]; decide, hfaulted⟩

/-! ## The registers an instruction writes and reads (R23) -/

/-- Settles O22: the only effect that writes registers is framed by the instruction's own. -/
theorem registersWrittenAsTabled : Obligations.RegistersWrittenAsTabled := by
  intro i s t h
  cases exec_effect h with
  | regs frame =>
    obtain ⟨hregs, -⟩ := frame
    exact hregs
  | skip _ | halt | jump | push _ | pop _ | fault _ => exact fun _ _ => rfl

/-- `t` and `u` are one state, or differ only in register `r`: it holds `v` in `u` and still `old` in `t`. -/
def SameButReg (r : Reg) (v old : Byte) (t u : State) : Prop :=
  u = t ∨ (u = t.setReg r v ∧ t.reg r = old)

theorem sameButReg_setReg (r : Reg) (v : Byte) (s : State) : SameButReg r v (s.reg r) s (s.setReg r v) :=
  .inr ⟨rfl, rfl⟩

/-- Every other register reads the same in both states. -/
theorem SameButReg.reg_eq {r q : Reg} {v old : Byte} {t u : State} (h : SameButReg r v old t u) (hq : q ≠ r) :
    u.reg q = t.reg q := by
  rcases h with rfl | ⟨rfl, -⟩
  · rfl
  · exact reg_setReg_ne t v hq

/-- One value written to one register of both: the difference is overwritten, or it stays as it was. -/
theorem SameButReg.setReg {r q : Reg} {v old w w' : Byte} {t u : State} (h : SameButReg r v old t u)
    (hw : w' = w) : SameButReg r v old (t.setReg q w) (u.setReg q w') := by
  subst hw
  rcases h with rfl | ⟨rfl, hold⟩
  · exact .inl rfl
  · by_cases hq : q = r
    · subst hq; exact .inl (setReg_setReg_self t q v w')
    · exact .inr ⟨setReg_comm t v w' hq, by rw [reg_setReg_ne t w' (Ne.symm hq), hold]⟩

theorem SameButReg.setFlag {r : Reg} {v old w w' : Byte} {t u : State} (h : SameButReg r v old t u)
    (hw : w' = w) : SameButReg r v old (t.setFlag w) (u.setFlag w') :=
  h.setReg hw

/-- A shift of one register of both, whose flag is written first and which reads the register again after it (R176,
R178). -/
theorem SameButReg.shift {r x : Reg} {v old : Byte} {t u : State} (h : SameButReg r v old t u) (hx : x ≠ r)
    (flag op : Byte → Byte) :
    SameButReg r v old
      ((t.setFlag (flag (t.reg x))).setReg x (op ((t.setFlag (flag (t.reg x))).reg x)))
      ((u.setFlag (flag (u.reg x))).setReg x (op ((u.setFlag (flag (u.reg x))).reg x))) := by
  have flagged := h.setFlag (congrArg flag (h.reg_eq hx))
  exact flagged.setReg (congrArg op (flagged.reg_eq hx))

/-- The same condition on both: both skip or neither does. -/
theorem SameButReg.skipIf {r : Reg} {v old : Byte} {t u : State} (h : SameButReg r v old t u) {b b' : Bool}
    (hb : b' = b) : SameButReg r v old (if b then t.advancePc else t) (if b' then u.advancePc else u) := by
  subst hb
  rcases h with rfl | ⟨rfl, hold⟩
  · exact .inl rfl
  · cases b' with
    | false => exact .inr ⟨rfl, hold⟩
    | true => exact .inr ⟨rfl, hold⟩

/-- RET neither reads nor writes a register. -/
theorem execState_ret_setReg (s : State) (r : Reg) (v : Byte) :
    execState .ret (s.setReg r v) = (execState .ret s).setReg r v := by
  by_cases hsp : s.sp.val = 0
  · rw [execState_of_exec (i := .ret) (s := s) (dif_pos hsp)]
    exact execState_of_exec (i := .ret) (dif_pos hsp)
  · rw [execState_of_exec (i := .ret) (s := s) (dif_neg hsp)]
    exact execState_of_exec (i := .ret) (dif_neg hsp)

/-- CALL neither reads nor writes a register. -/
theorem execState_call_setReg (nnn : Addr12) (s : State) (r : Reg) (v : Byte) :
    execState (.call nnn) (s.setReg r v) = (execState (.call nnn) s).setReg r v := by
  by_cases hsp : s.sp.val < Config.MAX_CALL_DEPTH
  · rw [execState_of_exec (i := .call nnn) (s := s) (dif_pos hsp)]
    exact execState_of_exec (i := .call nnn) (dif_pos hsp)
  · rw [execState_of_exec (i := .call nnn) (s := s) (dif_neg hsp)]
    exact execState_of_exec (i := .call nnn) (dif_neg hsp)

/-- Replacing a register the instruction does not read leaves its result the same but for that register, which is
overwritten or kept. -/
theorem sameButReg_execState {i : Instr} {r : Reg} (hr : r ∉ regsRead i) (v : Byte) (s : State) :
    SameButReg r v (s.reg r) (execState i s) (execState i (s.setReg r v)) := by
  have start := sameButReg_setReg r v s
  have kept (hw : r ∉ regsWritten i) : (execState i s).reg r = s.reg r :=
    registersWrittenAsTabled i s _ (exec_eq_next i s) r hw
  have unread {q : Reg} (hq : q ∈ regsRead i) : q ≠ r := fun e => hr (e ▸ hq)
  cases i with
  | halt | jp _ => exact .inr ⟨rfl, rfl⟩
  | ret => exact .inr ⟨execState_ret_setReg s r v, kept (by simp [regsWritten])⟩
  | call nnn => exact .inr ⟨execState_call_setReg nnn s r v, kept (by simp [regsWritten])⟩
  | seImm x nn | sneImm x nn =>
    have hx := start.reg_eq (unread (q := x) (.head _))
    exact start.skipIf (by rw [operandsEqual_congr hx rfl])
  | seReg x y | sneReg x y =>
    have hx := start.reg_eq (unread (q := x) (.head _))
    have hy := start.reg_eq (unread (q := y) (.tail _ (.head _)))
    exact start.skipIf (by rw [operandsEqual_congr (src := .reg y) hx hy])
  | ldImm x nn => exact start.setReg rfl
  | addImm x nn =>
    have hx := start.reg_eq (unread (q := x) (.head _))
    exact start.setReg (by simp [hx, source_imm])
  | ldReg x y => exact start.setReg (start.reg_eq (unread (.head _)))
  | orReg x y | andReg x y | xorReg x y =>
    have hx := start.reg_eq (unread (q := x) (.head _))
    have hy := start.reg_eq (unread (q := y) (.tail _ (.head _)))
    exact start.setReg (by simp [hx, hy, source_reg])
  | addReg x y =>
    have hx := start.reg_eq (unread (q := x) (.head _))
    have hy := start.reg_eq (unread (q := y) (.tail _ (.head _)))
    rw [execState_addReg, execState_addReg, hx, hy]
    split
    · exact start.setFlag rfl
    · exact start.setReg rfl
  | subReg x y =>
    have hx := start.reg_eq (unread (q := x) (.head _))
    have hy := start.reg_eq (unread (q := y) (.tail _ (.head _)))
    exact (start.setReg (by rw [hx, hy])).setFlag (by rw [hx, hy])
  | shr x y => exact start.shift (unread (.head _)) shiftedOutRight (· >>> 1)
  | shl x y => exact start.shift (unread (.head _)) shiftedOutLeft (· <<< 1)
  | subnReg x y =>
    have hx := start.reg_eq (unread (q := x) (.head _))
    have hy := start.reg_eq (unread (q := y) (.tail _ (.head _)))
    rw [execState_subnReg, execState_subnReg, hx, hy]
    split
    · exact start.setFlag rfl
    · exact (start.setReg rfl).setFlag rfl

/-- Settles O23, by running the instruction from both states at once. -/
theorem registersReadAsTabled : Obligations.RegistersReadAsTabled := by
  intro i s t r v hr h
  have heff := sameButReg_execState hr v s
  rw [execState_of_exec h] at heff
  refine ⟨_, exec_eq_next i (s.setReg r v), fun q hq => heff.reg_eq hq, ?_⟩
  rcases heff with hu | ⟨hu, hold⟩
  · rw [hu]; exact ⟨.inl rfl, rfl⟩
  · rw [hu]; exact ⟨.inr ⟨reg_setReg_self t r v, hold⟩, rfl⟩

end Sys2Proof.Safety
end

/-! # Proofs: memory (20_memory.md) -/

section

namespace Sys2Proof.Machine

/-! ## Accesses in bounds -/

theorem memWrite2_of_le (m : Memory) {a : Nat} (v : Word) (ha : a ≤ 4094) : memWrite2 m a v = some (m.write2 a v) :=
  ((memWrite2_cases m a v).resolve_right fun h => Nat.not_le_of_gt h.1 ha).2

theorem memRead2_of_le (m : Memory) {a : Nat} (ha : a ≤ 4094) :
    memRead2 m a = some (wordOfBytes (m.read a) (m.read (a + 1))) :=
  ((memRead2_cases m a).resolve_right fun h => Nat.not_le_of_gt h.1 ha).2

/-! ## A written word, byte by byte (R53) -/

@[simp] theorem read_write2_low (m : Memory) (a : Nat) (v : Word) : (m.write2 a v).read a = lowByte v := by
  rw [read_write2, if_pos rfl]

@[simp] theorem read_write2_high (m : Memory) (a : Nat) (v : Word) :
    (m.write2 a v).read (a + 1) = highByte v := by
  rw [read_write2, if_neg (Nat.succ_ne_self a), if_pos rfl]

theorem read_write2_other (m : Memory) {a b : Nat} (v : Word) (hlow : b ≠ a) (hhigh : b ≠ a + 1) :
    (m.write2 a v).read b = m.read b := by
  rw [read_write2, if_neg hlow, if_neg hhigh]

/-- The bytes of a written word as naturals, and the frame of the write. -/
theorem write2_bytes (m : Memory) (a : Nat) (v : Word) :
    ((m.write2 a v).read a).toNat = v.toNat % 256 ∧ ((m.write2 a v).read (a + 1)).toNat = v.toNat / 256 ∧
      ∀ b, b ≠ a → b ≠ a + 1 → (m.write2 a v).read b = m.read b := by
  refine ⟨?_, ?_, fun b => read_write2_other m v⟩
  · rw [read_write2_low, toNat_lowByte]
  · rw [read_write2_high, toNat_highByte]

/-- Settles O8: the bytes read at `a` and `a + 1` are the two the write put there. -/
theorem wordWriteReadsBack : Obligations.WordWriteReadsBack := by
  intro m a w ha
  obtain ⟨hlow, hhigh, hothers⟩ := write2_bytes m a w
  refine ⟨m.write2 a w, memWrite2_of_le m w ha, hlow, hhigh, hothers, ?_⟩
  rw [memRead2_of_le _ ha, read_write2_low, read_write2_high, wordOfBytes_low_high]

/-- Settles O10: the byte at `a + 1` is outside the second word, and the byte at `a + 2` is its low one. -/
theorem straddledReadMixesWords : Obligations.StraddledReadMixesWords := by
  intro m a w v ha
  refine ⟨_, _, _, memWrite2_of_le m w (by omega), memWrite2_of_le _ v (by omega), memRead2_of_le _ (by omega), ?_⟩
  have hfirst : ((m.write2 a w).write2 (a + 2) v).read (a + 1) = highByte w := by
    rw [read_write2_other _ v (by omega) (by omega), read_write2_high]
  rw [hfirst, read_write2_low, toNat_wordOfBytes, toNat_lowByte, toNat_highByte]

/-! ## The same state over another memory -/

/-- `s` with `m` for its memory. -/
def State.withMem (s : State) (m : Memory) : State := { s with mem := m }

theorem withMem_ite (c : Prop) [Decidable c] (s t : State) (m : Memory) :
    (if c then s else t).withMem m = if c then s.withMem m else t.withMem m :=
  apply_ite (State.withMem · m) c s t

/-- RET neither reads nor writes memory. -/
theorem execState_ret_withMem (s : State) (m : Memory) :
    execState .ret (s.withMem m) = (execState .ret s).withMem m := by
  by_cases hsp : s.sp.val = 0
  · rw [execState_of_exec (i := .ret) (s := s) (dif_pos hsp)]
    exact execState_of_exec (i := .ret) (dif_pos hsp)
  · rw [execState_of_exec (i := .ret) (s := s) (dif_neg hsp)]
    exact execState_of_exec (i := .ret) (dif_neg hsp)

/-- CALL neither reads nor writes memory. -/
theorem execState_call_withMem (nnn : Addr12) (s : State) (m : Memory) :
    execState (.call nnn) (s.withMem m) = (execState (.call nnn) s).withMem m := by
  by_cases hsp : s.sp.val < Config.MAX_CALL_DEPTH
  · rw [execState_of_exec (i := .call nnn) (s := s) (dif_pos hsp)]
    exact execState_of_exec (i := .call nnn) (dif_pos hsp)
  · rw [execState_of_exec (i := .call nnn) (s := s) (dif_neg hsp)]
    exact execState_of_exec (i := .call nnn) (dif_neg hsp)

/-- An instruction does the same to the rest of the state whatever memory holds (R51): every condition it branches on
is of registers or sp. -/
theorem execState_withMem (i : Instr) (s : State) (m : Memory) :
    execState i (s.withMem m) = (execState i s).withMem m := by
  cases i with
  | halt | jp _ => rfl
  | ret => exact execState_ret_withMem s m
  | call nnn => exact execState_call_withMem nnn s m
  | seImm _ _ | sneImm _ _ | seReg _ _ | sneReg _ _ => exact (withMem_ite _ s.advancePc s m).symm
  | ldImm _ _ | addImm _ _ | ldReg _ _ | orReg _ _ | andReg _ _ | xorReg _ _ | subReg _ _ | shr _ _ | shl _ _ => rfl
  | addReg x y => rw [execState_addReg, execState_addReg, withMem_ite]; rfl
  | subnReg x y => rw [execState_subnReg, execState_subnReg, withMem_ite]; rfl

/-! ## Run states in which the host acts (R107, R247) -/

/-- Where writes are refused: the two run states that `acceptsWrites_iff` does not name. -/
theorem acceptsWrites_eq_false_iff (s : State) :
    acceptsWrites s = false ↔ s.state = .running ∨ s.state = .faulted := by
  rw [← Bool.not_eq_true, acceptsWrites_iff]
  cases s.state <;> decide

theorem startRun_of_ready_or_halted {s : State} (hs : s.state = .ready ∨ s.state = .halted) :
    startRun s = some { s with state := .running } := by
  rcases hs with hs | hs <;> simp [startRun, hs]

end Sys2Proof.Machine

namespace Sys2Proof.Safety

open Sys2Proof.Machine

/-! ## What leaves memory alone (R51) -/

theorem exec_keeps_memory {i : Instr} {s t : State} (h : exec i s = .next t) : SameMemory s t ∧ t.wc = s.wc := by
  cases exec_effect h with
  | regs frame =>
    obtain ⟨-, -, hmem, hwc, -⟩ := frame
    exact ⟨hmem, hwc⟩
  | skip _ | halt | jump | push _ | pop _ | fault _ => exact ⟨⟨fun _ => rfl, rfl⟩, rfl⟩

theorem step_keeps_mem {s t : State} (h : step s = .next t) : t.mem = s.mem := by
  rcases step_effect h with rfl | ⟨-, v, rfl⟩ | ⟨i, -, hexec⟩
  · rfl
  · rfl
  · obtain ⟨⟨-, hmem⟩, -⟩ := exec_keeps_memory hexec
    exact hmem

theorem after_setRegister_keeps_mem {i : Nat} {v : Byte} {s t : State}
    (h : after (.host (.setRegister i v)) s = some t) : t.mem = s.mem := by
  rcases hostSetRegister_cases i v s with ⟨-, hdo⟩ | ⟨-, -, hdo⟩ | ⟨-, -, hdo⟩
  · rw [after_host_of_refused (op := .setRegister i v) hdo] at h; cases h
  · rw [after_host_of_raise (op := .setRegister i v) hdo] at h; cases h; rfl
  · rw [after_host_of_ok (op := .setRegister i v) hdo] at h; cases h; rfl

/-- Settles O11: of the events, a step, the start of a run and `set_register` keep memory; the other four are the
statement's own. -/
theorem onlyHostWritesMemory : Obligations.OnlyHostWritesMemory := by
  refine ⟨?ofExec, ?ofEvent⟩
  case ofExec =>
    intro i s t m h
    obtain ⟨hmem, hwc⟩ := exec_keeps_memory h
    refine ⟨hmem, hwc, ?_⟩
    calc exec i (s.withMem m) = .next (execState i (s.withMem m)) := exec_eq_next _ _
      _ = .next (t.withMem m) := by rw [execState_withMem, execState_of_exec h]
  case ofEvent =>
    intro e s t he hne
    cases e with
    | step => exact absurd (step_keeps_mem (after_step he)) hne
    | startRun =>
      cases startRun_effect he with
      | startRun _ => exact absurd rfl hne
    | host op =>
      cases op with
      | new => exact .inl rfl
      | setOpcode w => exact .inr (.inl ⟨w, rfl⟩)
      | writeInto w a => exact .inr (.inr (.inl ⟨w, a, rfl⟩))
      | load bytes => exact .inr (.inr (.inr ⟨bytes, rfl⟩))
      | setRegister i v => exact absurd (after_setRegister_keeps_mem he) hne

/-! ## The host's writes (R58 to R62) -/

/-- Fault entry by a host operation: the latch it returns is the one it writes, and all else is kept (R62, R214). -/
theorem hostRaise_effect (s : State) (code : FaultCode) (addr word : Word) :
    ∃ t, hostRaise s code addr word = .err t.fault t ∧ EnteredFault code addr word t ∧ t.pc = s.pc ∧
      SameBesidesPcAndStatus s t :=
  ⟨s.raise code addr word, rfl, ⟨rfl, rfl, rfl, rfl⟩, rfl, fun _ => rfl, ⟨fun _ => rfl, rfl⟩, rfl, rfl, rfl⟩

/-- An operation that checks one bound, in the three clauses of its rule: refused by run state, a fault beyond the
bound, its effect within it. -/
theorem host_clauses {op : HostOp} {s u : State} {n limit : Nat} {code : FaultCode} {addr word : Word}
    (h : (acceptsWrites s = false ∧ hostDo op s = .refused) ∨
      (acceptsWrites s = true ∧ limit < n ∧ hostDo op s = hostRaise s code addr word) ∨
      (acceptsWrites s = true ∧ n ≤ limit ∧ hostDo op s = .ok u)) :
    ((s.state = .running ∨ s.state = .faulted) → hostDo op s = .refused) ∧
    ((s.state = .ready ∨ s.state = .halted) → limit < n →
      ∃ t, hostDo op s = .err t.fault t ∧ EnteredFault code addr word t ∧ t.pc = s.pc ∧
        SameBesidesPcAndStatus s t) ∧
    ((s.state = .ready ∨ s.state = .halted) → n ≤ limit → hostDo op s = .ok u) := by
  rw [← acceptsWrites_iff, ← acceptsWrites_eq_false_iff]
  rcases h with ⟨hacc, hdo⟩ | ⟨hacc, hgt, hdo⟩ | ⟨hacc, hle, hdo⟩
  · exact ⟨fun _ => hdo, fun hs => absurd hs (by simp [hacc]), fun hs => absurd hs (by simp [hacc])⟩
  · exact ⟨fun hs => absurd hs (by simp [hacc]), fun _ _ => hdo ▸ hostRaise_effect s code addr word,
      fun _ hle => absurd hle (Nat.not_le_of_gt hgt)⟩
  · exact ⟨fun hs => absurd hs (by simp [hacc]), fun _ hgt => absurd hle (Nat.not_le_of_gt hgt), fun _ _ => hdo⟩

/-- Settles O43: the word's bytes and the frame are those of the write at wc. -/
theorem setOpcodeAppendsWord : Obligations.SetOpcodeAppendsWord := by
  intro w s
  obtain ⟨hrefused, hfault, hdone⟩ := host_clauses (op := .setOpcode w) (hostSetOpcode_cases w s)
  obtain ⟨hlow, hhigh, hothers⟩ := write2_bytes s.mem s.wc.toNat w
  refine ⟨hrefused, hfault, fun hs hle => ⟨_, hdone hs hle, toNat_add_two (by omega), hlow, hhigh, hothers, ?_⟩⟩
  exact ⟨fun _ => rfl, rfl, ⟨rfl, rfl⟩, rfl, rfl⟩

/-- Settles O44: the word's bytes and the frame are those of the write at `a`. -/
theorem writeIntoStoresWord : Obligations.WriteIntoStoresWord := by
  intro w a s
  obtain ⟨hrefused, hfault, hdone⟩ := host_clauses (op := .writeInto w a) (hostWriteInto_cases w a s)
  obtain ⟨hlow, hhigh, hothers⟩ := write2_bytes s.mem a.toNat w
  refine ⟨hrefused, hfault, fun hs hle => ⟨_, hdone hs hle, rfl, rfl, hlow, hhigh, hothers, ?_⟩⟩
  exact ⟨fun _ => rfl, ⟨rfl, rfl⟩, rfl, rfl⟩

/-- Settles O46: byte `k` of the list is the one `read_writeBytes` gives at 0x200 + k. -/
theorem loadCopiesBytes : Obligations.LoadCopiesBytes := by
  intro bs s
  obtain ⟨hrefused, hfault, hdone⟩ := host_clauses (op := .load bs) (hostLoad_cases bs s)
  refine ⟨hrefused, hfault, fun hs hle => ⟨_, hdone hs hle, fun k hk => ?copied, fun a ha => ?outside, ?frame⟩⟩
  case copied =>
    rw [read_writeBytes, dif_pos (by omega)]
    simp only [Nat.add_sub_cancel_left]
  case outside => rw [read_writeBytes, dif_neg (by omega)]
  case frame => exact ⟨fun _ => rfl, rfl, rfl, ⟨rfl, rfl⟩, rfl, rfl⟩

/-! ## The next fetch sees them (R68) -/

/-- A word written at pc is the word a fetch there reads. -/
theorem wordAtPc_of_write2 {s : State} {m : Memory} {w : Word} (h : s.mem = m.write2 s.pc.toNat w) :
    wordAtPc s = w := by
  rw [wordAtPc, h, read_write2_low, read_write2_high, wordOfBytes_low_high]

theorem step_of_fetches {s : State} {i : Instr} (h : Fetches s i) : step s = exec i s.advancePc := by
  obtain ⟨hrun, hpc, hdecode⟩ := h
  have hword : s.fetchWord = some (wordAtPc s) := memRead2_of_le s.mem hpc
  simp only [step, hrun, hword, hdecode]

/-- Settles O45: `write_into` and the start of a run leave pc, so the first step fetches the bytes just written. -/
theorem hostWriteIsSeenByNextFetch : Obligations.HostWriteIsSeenByNextFetch := by
  intro s w hs hpc
  obtain ⟨-, -, hdone⟩ := host_clauses (op := .writeInto w s.pc) (hostWriteInto_cases w s.pc s)
  have hword : wordAtPc { s with mem := s.mem.write2 s.pc.toNat w, state := .running } = w := wordAtPc_of_write2 rfl
  refine ⟨_, _, hdone hs hpc, startRun_of_ready_or_halted hs, rfl, rfl, hword, fun i hi => ?_⟩
  exact step_of_fetches ⟨rfl, hpc, (congrArg decode hword).trans hi⟩

end Sys2Proof.Safety
end

/-! # Proofs: the encoding (30_encoding.md) -/

section

namespace Sys2Proof

/-! ## Decoding inverts encoding -/

theorem decodeSkip_of_D0 {skip : Reg → Reg → Instr} {w : Word} (h : fieldD w = 0x0#4) :
    decodeSkip skip w = .instr (skip (fieldX w) (fieldY w)) := if_pos h

theorem decodeSkip_of_D_ne_0 {skip : Reg → Reg → Instr} {w : Word} (h : fieldD w ≠ 0x0#4) :
    decodeSkip skip w = .unrecognized w := if_neg h

/-- The fields of every format are read back from its word, and C (with D, for C = 5, 8 and 9) selects the
instruction again (R82, R87 to R89). -/
theorem decode_encode (i : Instr) : decode (encode i) = .instr i := by
  cases i with
  | halt | ret => decide
  | jp _ => simp [encode, decode_C1]
  | call _ => simp [encode, decode_C2]
  | seImm _ _ => simp [encode, decode_C3]
  | sneImm _ _ => simp [encode, decode_C4]
  | seReg _ _ => simp [encode, decode_C5, decodeSkip_of_D0]
  | ldImm _ _ => simp [encode, decode_C6]
  | addImm _ _ => simp [encode, decode_C7]
  | ldReg _ _ | orReg _ _ | andReg _ _ | xorReg _ _ | addReg _ _ | subReg _ _ | shr _ _ | subnReg _ _ | shl _ _ =>
    simp [encode, decode_C8, decodeAlu]
  | sneReg _ _ => simp [encode, decode_C9, decodeSkip_of_D0]

theorem encode_injective {i j : Instr} (h : encode i = encode j) : i = j :=
  Decoded.instr.inj <|
    calc Decoded.instr i = decode (encode i) := (decode_encode i).symm
      _ = decode (encode j) := congrArg decode h
      _ = .instr j := decode_encode j

theorem decodeBytes_encodeBytes (i : Instr) (rest : List Byte) :
    decodeBytes (encodeBytes i ++ rest) = .decoded (.instr i) rest :=
  calc decodeBytes (encodeBytes i ++ rest)
      = .decoded (decode (wordOfBytes (lowByte (encode i)) (highByte (encode i)))) rest := rfl
    _ = .decoded (.instr i) rest := by rw [wordOfBytes_low_high, decode_encode]

/-- Settles O2, from the word by the fields of each format, and from the bytes by joining them to that word. -/
theorem decodeInvertsEncode : Obligations.DecodeInvertsEncode :=
  fun i rest => ⟨decode_encode i, decodeBytes_encodeBytes i rest⟩

/-! ## Encoding inverts decoding -/

theorem encodeAddr_of_C {w : Word} {c : BitVec 4} (h : fieldC w = c) : encodeAddr c (fieldNNN w) = w :=
  h ▸ encodeAddr_fields w

theorem encodeRImm_of_C {w : Word} {c : BitVec 4} (h : fieldC w = c) : encodeRImm c (fieldX w) (fieldNN w) = w :=
  h ▸ encodeRImm_fields w

theorem encodeRR_of_C_D {w : Word} {c d : BitVec 4} (hc : fieldC w = c) (hd : fieldD w = d) :
    encodeRR c (fieldX w) (fieldY w) d = w :=
  hc ▸ hd ▸ encodeRR_fields w

/-- The word something decoded stands for: an instruction's encoding, or the illegal word carried.
`word_decode` ties it to `decode`. -/
def Decoded.word : Decoded → Word
  | .instr i => encode i
  | .unrecognized w => w

theorem word_decodeFix (w : Word) : (decodeFix w).word = w := by
  unfold decodeFix
  split
  · next h => exact h.symm
  · split
    · next h => exact h.symm
    · rfl

theorem word_decodeSkip {skip : Reg → Reg → Instr} {w : Word} {c : BitVec 4}
    (hskip : ∀ x y, encode (skip x y) = encodeRR c x y 0x0#4) (hc : fieldC w = c) :
    (decodeSkip skip w).word = w := by
  by_cases hd : fieldD w = 0x0#4
  · rw [decodeSkip_of_D0 hd]
    exact (hskip _ _).trans (encodeRR_of_C_D hc hd)
  · rw [decodeSkip_of_D_ne_0 hd]; rfl

theorem word_decodeAlu {w : Word} (hc : fieldC w = 0x8#4) : (decodeAlu w).word = w := by
  have legal {d : BitVec 4} (hd : (fieldD w).toNat = d.toNat) : encodeRR 0x8#4 (fieldX w) (fieldY w) d = w :=
    encodeRR_of_C_D hc (BitVec.eq_of_toNat_eq hd)
  unfold decodeAlu
  split
  case h_10 => rfl
  all_goals exact legal ‹_›

/-- No bit of a word is lost in decoding: each family's format covers the whole word, and an illegal word is carried
(R86, R87, R92). -/
theorem word_decode (w : Word) : (decode w).word = w := by
  have family {c : BitVec 4} (hc : (fieldC w).toNat = c.toNat) : fieldC w = c := BitVec.eq_of_toNat_eq hc
  unfold decode
  split
  · exact word_decodeFix w
  · exact encodeAddr_of_C (family ‹_›)
  · exact encodeAddr_of_C (family ‹_›)
  · exact encodeRImm_of_C (family ‹_›)
  · exact encodeRImm_of_C (family ‹_›)
  · exact word_decodeSkip (fun _ _ => rfl) (family ‹_›)
  · exact encodeRImm_of_C (family ‹_›)
  · exact encodeRImm_of_C (family ‹_›)
  · exact word_decodeAlu (family ‹_›)
  · exact word_decodeSkip (fun _ _ => rfl) (family ‹_›)
  · rfl

theorem encode_of_decode {w : Word} {i : Instr} (h : decode w = .instr i) : encode i = w :=
  (congrArg Decoded.word h).symm.trans (word_decode w)

theorem unrecognized_carries_word {w v : Word} (h : decode w = .unrecognized v) : v = w :=
  (congrArg Decoded.word h).symm.trans (word_decode w)

/-- Settles O3: what is decoded stands for the word itself. -/
theorem encodeInvertsDecode : Obligations.EncodeInvertsDecode :=
  fun _ => ⟨fun _ => encode_of_decode, fun _ => unrecognized_carries_word⟩

/-! ## The opcode map (R86) -/

theorem fieldC_of_and_F000 {w p : Word} (h : w &&& 0xF000#16 = p) : fieldC w = fieldC p := by
  rw [← h, and_F000, fieldC_encodeRR]

theorem fieldC_of_and_F00F {w p : Word} (h : w &&& 0xF00F#16 = p) : fieldC w = fieldC p := by
  rw [← h, and_F00F, fieldC_encodeRR]

theorem fieldD_of_and_F00F {w p : Word} (h : w &&& 0xF00F#16 = p) : fieldD w = fieldD p := by
  rw [← h, and_F00F, fieldD_encodeRR]

/-- An instruction built from a word that matches its row encodes to that word: the pattern holds every bit that the
row's format reads from no field. -/
theorem encode_build : ∀ r ∈ opcodeTable, ∀ w : Word, w &&& r.mask = r.pattern → encode (r.build w) = w := by
  have fix {p : Word} (w : Word) (h : w &&& 0xFFFF#16 = p) : p = w := h.symm.trans (and_FFFF w)
  have addr {p : Word} {c : BitVec 4} (hc : fieldC p = c) (w : Word) (h : w &&& 0xF000#16 = p) :
      encodeAddr c (fieldNNN w) = w := encodeAddr_of_C ((fieldC_of_and_F000 h).trans hc)
  have rimm {p : Word} {c : BitVec 4} (hc : fieldC p = c) (w : Word) (h : w &&& 0xF000#16 = p) :
      encodeRImm c (fieldX w) (fieldNN w) = w := encodeRImm_of_C ((fieldC_of_and_F000 h).trans hc)
  have rr {p : Word} {c d : BitVec 4} (hc : fieldC p = c) (hd : fieldD p = d) (w : Word)
      (h : w &&& 0xF00F#16 = p) : encodeRR c (fieldX w) (fieldY w) d = w :=
    encodeRR_of_C_D ((fieldC_of_and_F00F h).trans hc) ((fieldD_of_and_F00F h).trans hd)
  simp only [opcodeTable, List.forall_mem_cons]
  exact ⟨fix, fix, addr rfl, addr rfl, rimm rfl, rimm rfl, rr rfl rfl, rimm rfl, rimm rfl, rr rfl rfl, rr rfl rfl,
    rr rfl rfl, rr rfl rfl, rr rfl rfl, rr rfl rfl, rr rfl rfl, rr rfl rfl, rr rfl rfl, rr rfl rfl,
    fun _ h => absurd h List.not_mem_nil⟩

theorem decode_of_matchesWord {w : Word} {r : OpcodeRow} (hr : r ∈ opcodeTable) (hm : r.matchesWord w = true) :
    decode w = .instr (r.build w) := by
  have hback : encode (r.build w) = w := encode_build r hr w (beq_iff_eq.mp hm)
  calc decode w = decode (encode (r.build w)) := by rw [hback]
    _ = .instr (r.build w) := decode_encode _

/-- Every instruction's encoding is in a row of the table: the per-instruction statements, gathered. -/
theorem encodedInRow : ∀ i : Instr, Laws.EncodedInRow.Statement i
  | .halt => Laws.EncodedInRow.halt
  | .ret => Laws.EncodedInRow.ret
  | .jp nnn => Laws.EncodedInRow.jp nnn
  | .call nnn => Laws.EncodedInRow.call nnn
  | .seImm x nn => Laws.EncodedInRow.seImm x nn
  | .sneImm x nn => Laws.EncodedInRow.sneImm x nn
  | .seReg x y => Laws.EncodedInRow.seReg x y
  | .ldImm x nn => Laws.EncodedInRow.ldImm x nn
  | .addImm x nn => Laws.EncodedInRow.addImm x nn
  | .ldReg x y => Laws.EncodedInRow.ldReg x y
  | .orReg x y => Laws.EncodedInRow.orReg x y
  | .andReg x y => Laws.EncodedInRow.andReg x y
  | .xorReg x y => Laws.EncodedInRow.xorReg x y
  | .addReg x y => Laws.EncodedInRow.addReg x y
  | .subReg x y => Laws.EncodedInRow.subReg x y
  | .shr x y => Laws.EncodedInRow.shr x y
  | .subnReg x y => Laws.EncodedInRow.subnReg x y
  | .shl x y => Laws.EncodedInRow.shl x y
  | .sneReg x y => Laws.EncodedInRow.sneReg x y

/-- The illegal words are those of no row. -/
theorem decode_eq_unrecognized_iff (w : Word) :
    decode w = .unrecognized w ↔ ∀ r ∈ opcodeTable, r.matchesWord w = false := by
  constructor
  · intro hd r hr
    by_contra hm
    have hlegal := decode_of_matchesWord hr (Bool.eq_true_of_not_eq_false hm)
    exact absurd (hd.symm.trans hlegal) Decoded.noConfusion
  · intro hnone
    cases hd : decode w with
    | instr i =>
      obtain ⟨-, r, hr, hm, -⟩ := encodedInRow i
      rw [encode_of_decode hd, hnone r hr] at hm
      cases hm
    | unrecognized v => rw [unrecognized_carries_word hd]

/-- Two rows that one word matches agree on the bits that both masks keep. -/
theorem pattern_and_mask_eq {w : Word} {r q : OpcodeRow} (hr : r.matchesWord w = true) (hq : q.matchesWord w = true) :
    r.pattern &&& q.mask = q.pattern &&& r.mask := by
  rw [← beq_iff_eq.mp hr, ← beq_iff_eq.mp hq]
  ac_rfl

/-- Any two rows of the table differ in a bit that both masks keep. -/
theorem rows_differ_under_masks :
    opcodeTable.Pairwise (fun r q => r.pattern &&& q.mask ≠ q.pattern &&& r.mask) := by
  decide

/-- Settles O4: a matching row's instruction encodes to the word, two rows are told apart by their masks, and an
instruction a word decoded to would put it in a row. -/
theorem opcodeMapDecides : Obligations.OpcodeMapDecides :=
  ⟨fun _ _ => decode_of_matchesWord,
    fun _ => rows_differ_under_masks.imp fun hne ⟨hr, hq⟩ => hne (pattern_and_mask_eq hr hq),
    fun w => (decode_eq_unrecognized_iff w).mpr⟩

/-! ## Illegal words (R88, R90) -/

/-- Settles O6: both families hand the word to `decodeSkip`, which looks at D. -/
theorem registerSkipsNeedZeroD : Obligations.RegisterSkipsNeedZeroD := by
  intro w hc
  refine ⟨fun hd => ?illegal, fun hd hc5 => ?se, fun hd hc9 => ?sne⟩
  case illegal =>
    rcases hc with hc5 | hc9
    · exact (decode_C5 hc5).trans (decodeSkip_of_D_ne_0 hd)
    · exact (decode_C9 hc9).trans (decodeSkip_of_D_ne_0 hd)
  case se => exact (decode_C5 hc5).trans (decodeSkip_of_D0 hd)
  case sne => exact (decode_C9 hc9).trans (decodeSkip_of_D0 hd)

end Sys2Proof

namespace Sys2Proof.Safety

open Sys2Proof.Machine

theorem isIllegal_of_decode_instr {w : Word} {i : Instr} (h : decode w = .instr i) : isIllegal w = false := by
  simp only [isIllegal, h]

theorem isIllegal_of_decode_unrecognized {w v : Word} (h : decode w = .unrecognized v) : isIllegal w = true := by
  simp only [isIllegal, h]

theorem isIllegal_iff_decode (w : Word) : isIllegal w = true ↔ decode w = .unrecognized w := by
  cases hd : decode w with
  | instr i => simp [isIllegal_of_decode_instr hd]
  | unrecognized v => simp [isIllegal_of_decode_unrecognized hd, unrecognized_carries_word hd]

/-! ### Family by family -/

theorem isIllegal_C0 {w : Word} (hc : fieldC w = 0x0#4) : isIllegal w = true ↔ w ≠ 0x0000#16 ∧ w ≠ 0x00EE#16 := by
  rw [isIllegal_iff_decode, decode_C0 hc, decodeFix]
  by_cases h0 : w = 0x0000#16
  · simp [h0]
  · by_cases hEE : w = 0x00EE#16
    · simp [hEE]
    · simp [h0, hEE]

theorem isIllegal_skip {w : Word} (hc : fieldC w = 0x5#4 ∨ fieldC w = 0x9#4) :
    isIllegal w = true ↔ fieldD w ≠ 0x0#4 := by
  obtain ⟨hillegal, hse, hsne⟩ := registerSkipsNeedZeroD w hc
  refine ⟨fun h hd => ?_, fun hd => isIllegal_of_decode_unrecognized (hillegal hd)⟩
  rcases hc with hc5 | hc9
  · exact absurd h (by simp [isIllegal_of_decode_instr (hse hd hc5)])
  · exact absurd h (by simp [isIllegal_of_decode_instr (hsne hd hc9)])

/-- The values of D that select no operation in the C = 8 family (R89, R90). -/
abbrev unusedAluD : List (BitVec 4) := [0x8#4, 0x9#4, 0xA#4, 0xB#4, 0xC#4, 0xD#4, 0xF#4]

theorem isIllegal_C8 {w : Word} (hc : fieldC w = 0x8#4) : isIllegal w = true ↔ fieldD w ∈ unusedAluD := by
  simp only [isIllegal, decode_C8 hc, decodeAlu]
  rcases nibble_cases (fieldD w) with h | h | h | h | h | h | h | h | h | h | h | h | h | h | h | h <;>
    simp [h, unusedAluD]

theorem isIllegal_CA {w : Word} (hc : 0xA ≤ (fieldC w).toNat) : isIllegal w = true :=
  isIllegal_of_decode_unrecognized (decode_CA hc)

/-- The families whose fields fill the word: an immediate byte or an address. -/
def FullFamily (c : BitVec 4) : Prop :=
  c = 0x1#4 ∨ c = 0x2#4 ∨ c = 0x3#4 ∨ c = 0x4#4 ∨ c = 0x6#4 ∨ c = 0x7#4

theorem isIllegal_full {w : Word} (hc : FullFamily (fieldC w)) : isIllegal w = false := by
  rcases hc with hc | hc | hc | hc | hc | hc
  · exact isIllegal_of_decode_instr (decode_C1 hc)
  · exact isIllegal_of_decode_instr (decode_C2 hc)
  · exact isIllegal_of_decode_instr (decode_C3 hc)
  · exact isIllegal_of_decode_instr (decode_C4 hc)
  · exact isIllegal_of_decode_instr (decode_C6 hc)
  · exact isIllegal_of_decode_instr (decode_C7 hc)

/-- Every C is of one of five kinds. -/
theorem family_cases (c : BitVec 4) :
    c = 0x0#4 ∨ (c = 0x5#4 ∨ c = 0x9#4) ∨ c = 0x8#4 ∨ 0xA ≤ c.toNat ∨ FullFamily c := by
  unfold FullFamily
  revert c
  decide

/-- The four groups of R90. -/
theorem isIllegal_iff_groups (w : Word) :
    isIllegal w = true ↔
      (fieldC w = 0x0#4 ∧ w ≠ 0x0000#16 ∧ w ≠ 0x00EE#16) ∨
      ((fieldC w = 0x5#4 ∨ fieldC w = 0x9#4) ∧ fieldD w ≠ 0x0#4) ∨
      (fieldC w = 0x8#4 ∧ fieldD w ∈ unusedAluD) ∨
      0xA ≤ (fieldC w).toNat := by
  constructor
  · intro h
    rcases family_cases (fieldC w) with hc | hc | hc | hc | hc
    · exact .inl ⟨hc, (isIllegal_C0 hc).mp h⟩
    · exact .inr (.inl ⟨hc, (isIllegal_skip hc).mp h⟩)
    · exact .inr (.inr (.inl ⟨hc, (isIllegal_C8 hc).mp h⟩))
    · exact .inr (.inr (.inr hc))
    · exact absurd h (by simp [isIllegal_full hc])
  · rintro (⟨hc, hw⟩ | ⟨hc, hd⟩ | ⟨hc, hd⟩ | hc)
    · exact (isIllegal_C0 hc).mpr hw
    · exact (isIllegal_skip hc).mpr hd
    · exact (isIllegal_C8 hc).mpr hd
    · exact isIllegal_CA hc

/-! ### Counting them -/

/-- How many of the words from `start` up to, not including, `stop` are illegal. -/
def illegalCount (start stop : Nat) : Nat :=
  (List.range' start (stop - start)).countP fun n => isIllegal (BitVec.ofNat 16 n)

theorem illegalCount_split (a b c : Nat) (h : a ≤ b ∧ b ≤ c) :
    illegalCount a c = illegalCount a b + illegalCount b c := by
  have hrange : List.range' a (c - a) = List.range' a (b - a) ++ List.range' b (c - b) := by
    rw [show c - a = (b - a) + (c - b) by omega, ← List.range'_append_1, show a + (b - a) = b by omega]
  rw [illegalCount, hrange, List.countP_append]
  rfl

theorem illegalCount_of_all {start stop : Nat}
    (h : ∀ n, start ≤ n → n < stop → isIllegal (BitVec.ofNat 16 n) = true) :
    illegalCount start stop = stop - start := by
  have hall : illegalCount start stop = (List.range' start (stop - start)).length :=
    List.countP_eq_length.mpr fun n hn => by
      have := List.mem_range'_1.mp hn
      exact h n (by omega) (by omega)
  rw [hall, List.length_range']

theorem illegalCount_of_none {start stop : Nat}
    (h : ∀ n, start ≤ n → n < stop → isIllegal (BitVec.ofNat 16 n) = false) : illegalCount start stop = 0 :=
  List.countP_eq_zero.mpr fun n hn => by
    have := List.mem_range'_1.mp hn
    simp [h n (by omega) (by omega)]

/-- Where D alone decides, every sixteen words in a row hold as many illegal ones. -/
theorem illegalCount_blocks {start : Nat} (hstart : 16 ∣ start) (q : BitVec 4 → Bool) (k : Nat)
    (h : ∀ n, start ≤ n → n < start + 16 * k → isIllegal (BitVec.ofNat 16 n) = q (BitVec.ofNat 4 n)) :
    illegalCount start (start + 16 * k) = k * (List.range 16).countP fun d => q (BitVec.ofNat 4 d) := by
  induction k with
  | zero => simp [illegalCount]
  | succ k ih =>
    have hlast : illegalCount (start + 16 * k) (start + 16 * (k + 1)) =
        (List.range 16).countP fun d => q (BitVec.ofNat 4 d) := by
      rw [illegalCount, show start + 16 * (k + 1) - (start + 16 * k) = 16 by omega, List.range'_eq_map_range,
        List.countP_map]
      refine List.countP_congr fun d hd => ?_
      have hlt := List.mem_range.mp hd
      have hD : BitVec.ofNat 4 (start + 16 * k + d) = BitVec.ofNat 4 d := by
        apply BitVec.eq_of_toNat_eq
        rw [BitVec.toNat_ofNat, BitVec.toNat_ofNat]; omega
      simp only [Function.comp_apply, h (start + 16 * k + d) (by omega) (by omega), hD]
    rw [illegalCount_split _ (start + 16 * k) _ (by omega), ih fun n hlo hhi => h n hlo (by omega), hlast,
      Nat.succ_mul]

theorem toNat_fieldC_ofNat {n : Nat} (h : n < 0x10000) : (fieldC (BitVec.ofNat 16 n)).toNat = n / 0x1000 := by
  rw [toNat_fieldC, BitVec.toNat_ofNat, Nat.mod_eq_of_lt h]

theorem fieldD_ofNat (n : Nat) : fieldD (BitVec.ofNat 16 n) = BitVec.ofNat 4 n := by
  apply BitVec.eq_of_toNat_eq
  rw [toNat_fieldD, BitVec.toNat_ofNat, BitVec.toNat_ofNat]; omega

theorem fieldC_ofNat {n : Nat} (c : Nat) (hlo : 0x1000 * c ≤ n) (hhi : n < 0x1000 * c + 0x1000) (hn : n < 0x10000) :
    fieldC (BitVec.ofNat 16 n) = BitVec.ofNat 4 c := by
  apply BitVec.eq_of_toNat_eq
  rw [toNat_fieldC_ofNat hn, BitVec.toNat_ofNat]; omega

/-- C = 0: all but the words of HALT and RET. -/
theorem illegalCount_C0 : illegalCount 0x0000 0x1000 = 4094 := by
  have illegal {n : Nat} (hn : n < 0x1000) : isIllegal (BitVec.ofNat 16 n) = true ↔ n ≠ 0x0000 ∧ n ≠ 0x00EE := by
    rw [isIllegal_C0 (fieldC_ofNat 0 (by omega) (by omega) (by omega))]
    bv_omega
  have hhalt : illegalCount 0x0000 0x0001 = 0 := rfl
  have hret : illegalCount 0x00EE 0x00EF = 0 := rfl
  have hbetween : illegalCount 0x0001 0x00EE = 0xED :=
    illegalCount_of_all fun n hlo hhi => (illegal (by omega)).mpr (by omega)
  have hafter : illegalCount 0x00EF 0x1000 = 0xF11 :=
    illegalCount_of_all fun n hlo hhi => (illegal (by omega)).mpr (by omega)
  rw [illegalCount_split 0x0000 0x0001 0x1000 (by omega), illegalCount_split 0x0001 0x00EE 0x1000 (by omega),
    illegalCount_split 0x00EE 0x00EF 0x1000 (by omega), hhalt, hbetween, hret, hafter]

/-- A family in which D alone decides holds 256 illegal words for each illegal D. -/
theorem illegalCount_family {c : Nat} (hc : c < 16) (q : BitVec 4 → Bool)
    (h : ∀ w : Word, fieldC w = BitVec.ofNat 4 c → isIllegal w = q (fieldD w)) :
    illegalCount (0x1000 * c) (0x1000 * c + 0x1000) =
      0x100 * (List.range 16).countP fun d => q (BitVec.ofNat 4 d) := by
  refine illegalCount_blocks (by omega) q 0x100 fun n hlo hhi => ?_
  rw [h _ (fieldC_ofNat c hlo hhi (by omega)), fieldD_ofNat]

/-- Fifteen of every sixteen words of a register skip's family are illegal, those with D ≠ 0. -/
theorem illegalCount_skip {c : Nat} (hlt : c < 16) (hc : BitVec.ofNat 4 c = 0x5#4 ∨ BitVec.ofNat 4 c = 0x9#4) :
    illegalCount (0x1000 * c) (0x1000 * c + 0x1000) = 3840 := by
  have hD (w : Word) (hw : fieldC w = BitVec.ofNat 4 c) : isIllegal w = (fieldD w != 0x0#4) := by
    rw [Bool.eq_iff_iff, isIllegal_skip (hw ▸ hc), bne_iff_ne]
  exact (illegalCount_family hlt (· != 0x0#4) hD).trans (by decide)

theorem illegalCount_C5 : illegalCount 0x5000 0x6000 = 3840 := illegalCount_skip (c := 5) (by decide) (.inl rfl)

theorem illegalCount_C9 : illegalCount 0x9000 0xA000 = 3840 := illegalCount_skip (c := 9) (by decide) (.inr rfl)

/-- Seven of every sixteen words with C = 8 are illegal, one for each unused D. -/
theorem illegalCount_C8 : illegalCount 0x8000 0x9000 = 1792 := by
  have hD (w : Word) (hw : fieldC w = 0x8#4) : isIllegal w = decide (fieldD w ∈ unusedAluD) := by
    rw [Bool.eq_iff_iff, isIllegal_C8 hw, decide_eq_true_iff]
  exact (illegalCount_family (c := 8) (by decide) (decide <| · ∈ unusedAluD) hD).trans (by decide)

/-- C = 0xA to 0xF: every word. -/
theorem illegalCount_CA : illegalCount 0xA000 0x10000 = 24576 :=
  illegalCount_of_all fun n hlo hhi => isIllegal_CA (by rw [toNat_fieldC_ofNat hhi]; omega)

/-- The families that fill the word: none. -/
theorem illegalCount_full {start stop : Nat}
    (h : 0x1000 ≤ start ∧ stop ≤ 0x5000 ∨ 0x6000 ≤ start ∧ stop ≤ 0x8000) : illegalCount start stop = 0 :=
  illegalCount_of_none fun n hlo hhi => isIllegal_full <| by
    have hfield := toNat_fieldC_ofNat (n := n) (by omega)
    unfold FullFamily
    bv_omega

/-- All 65536 words, family by family. -/
theorem illegalCount_all : illegalCount 0x0000 0x10000 = 38142 := by
  rw [illegalCount_split 0x0000 0x1000 0x10000 (by omega), illegalCount_split 0x1000 0x5000 0x10000 (by omega),
    illegalCount_split 0x5000 0x6000 0x10000 (by omega), illegalCount_split 0x6000 0x8000 0x10000 (by omega),
    illegalCount_split 0x8000 0x9000 0x10000 (by omega), illegalCount_split 0x9000 0xA000 0x10000 (by omega),
    illegalCount_C0, illegalCount_full (start := 0x1000) (by omega), illegalCount_C5,
    illegalCount_full (start := 0x6000) (by omega), illegalCount_C8, illegalCount_C9, illegalCount_CA]

/-! ### Executing one -/

theorem step_of_fetchesIllegal {s : State} (h : FetchesIllegal s) :
    step s = .next (s.raiseUnrecognized (wordAtPc s)) := by
  obtain ⟨hrun, hpc, hdecode⟩ := h
  have hword : s.fetchWord = some (wordAtPc s) := memRead2_of_le s.mem hpc
  simp only [step, hrun, hword, hdecode]

/-- Settles O5: no row, the four groups and the counts are those of `decode`, and the fault is the decode fault. -/
theorem illegalWordsAreExactlyThese : Obligations.IllegalWordsAreExactlyThese := by
  refine ⟨fun w => ?noRow, isIllegal_iff_groups, ⟨?all, ?families⟩, fun s hrun hpc hill => ?faults⟩
  case noRow => rw [isIllegal_iff_decode, decode_eq_unrecognized_iff]
  case all => rw [List.range_eq_range']; exact illegalCount_all
  case families =>
    exact ⟨illegalCount_C0, illegalCount_C5, illegalCount_C8, illegalCount_C9, illegalCount_CA⟩
  case faults =>
    have hdecode := (isIllegal_iff_decode (wordAtPc s)).mp hill
    exact ⟨_, step_of_fetchesIllegal ⟨hrun, hpc, hdecode⟩, rfl, rfl⟩

end Sys2Proof.Safety

namespace Sys2Proof

/-! ## Reassembly (R93) -/

/-- Only a shift with Y ≠ 0 differs from the instruction its spelling names. -/
theorem isCanonical_eq_false_iff (i : Instr) :
    i.isCanonical = false ↔ ∃ x y : Reg, y ≠ 0x0#4 ∧ (i = .shr x y ∨ i = .shl x y) := by
  rw [Instr.isCanonical, decide_eq_false_iff_not]
  cases i with
  | shr _ _ | shl _ _ => simp [Instr.canonical, @eq_comm _ 0x0#4]
  | _ => simp [Instr.canonical]

theorem spell_canonical (i : Instr) : i.canonical.spell = i.spell := by
  cases i <;> rfl

theorem disassemble_of_decode {w : Word} {i : Instr} (h : decode w = .instr i) : disassemble w = i.spell := by
  simp only [disassemble, h]

theorem decode_assemble (i : Instr) : decode (assemble i) = .instr i.canonical :=
  decode_encode i.canonical

theorem assemble_eq_encode_iff (i : Instr) : assemble i = encode i ↔ i.isCanonical = true := by
  rw [Instr.isCanonical, decide_eq_true_iff]
  exact ⟨encode_injective, congrArg encode⟩

/-- Settles O7: the word is its instruction's encoding, so it is compared with that of the canonical instruction. -/
theorem reassemblyLosesOnlyShiftY : Obligations.ReassemblyLosesOnlyShiftY := by
  intro w i h
  have hword : encode i = w := encode_of_decode h
  refine ⟨hword ▸ assemble_eq_encode_iff i, isCanonical_eq_false_iff i, decode_assemble i, ?_⟩
  calc disassemble (assemble i) = i.canonical.spell := disassemble_of_decode (decode_assemble i)
    _ = i.spell := spell_canonical i
    _ = disassemble w := (disassemble_of_decode h).symm

/-! ## Words of the spec -/

/-- Settles O1, by running the decoder on the sixteen words. -/
theorem specWordsDecode : Obligations.SpecWordsDecode := by
  unfold Obligations.SpecWordsDecode
  decide

end Sys2Proof
end

/-! # Proofs: the dispatcher (40_dispatch.md) -/

section

namespace Sys2Proof.Safety

open Sys2Proof.Machine

/-! ## When a step happens (R100, R102) -/

/-- No step from RUNNING is refused (R104, R105). -/
theorem exists_step_of_running {s : State} (hrun : s.state = .running) : ∃ t, step s = .next t := by
  rcases step_running s hrun with ⟨-, hstep⟩ | ⟨w, v, -, -, -, hstep⟩ | ⟨w, i, -, -, -, hstep⟩
  · exact ⟨_, hstep⟩
  · exact ⟨_, hstep⟩
  · exact ⟨_, hstep.trans (exec_eq_next i s.advancePc)⟩

/-- Settles O14: a step gives a next state in RUNNING, and only there. -/
theorem stepOnlyWhileRunning : Obligations.StepOnlyWhileRunning :=
  fun _ => ⟨fun ⟨_, hstep⟩ => running_of_step hstep, exists_step_of_running⟩

theorem step_of_fetch_out_of_bounds {s : State} (hrun : s.state = .running) (hpc : 4094 < s.pc.toNat) :
    step s = .next s.raiseFetch := by
  rcases step_running s hrun with ⟨-, hstep⟩ | ⟨w, v, hle, -⟩ | ⟨w, i, hle, -⟩
  · exact hstep
  · omega
  · omega

/-- Settles O15: the fetch fault is the same state over any memory, since only pc and the run state decide it. -/
theorem fetchOutOfBoundsFaults : Obligations.FetchOutOfBoundsFaults := by
  intro s hrun hpc
  refine ⟨s.raiseFetch, step_of_fetch_out_of_bounds hrun hpc, ?entered, rfl, ?frame, fun m => ?anyMemory⟩
  case entered => exact ⟨rfl, rfl, rfl, rfl⟩
  case frame => exact ⟨fun _ => rfl, ⟨fun _ => rfl, rfl⟩, rfl, rfl, rfl⟩
  case anyMemory => exact step_of_fetch_out_of_bounds (s := s.withMem m) hrun hpc

/-! ## Which instruction a step runs (R101) -/

/-- Settles O12: the first two bytes of the list are the word at pc. -/
theorem stepRunsDecodedInstruction : Obligations.StepRunsDecodedInstruction := by
  intro s i rest hrun hpc hbytes
  have hdecode : decode (wordAtPc s) = .instr i := (BytesDecoded.decoded.inj hbytes).1
  exact step_of_fetches ⟨hrun, hpc, hdecode⟩

/-- Settles O13, by O12: the encoding's two bytes decode to the instruction. -/
theorem stepRunsEncodedInstruction : Obligations.StepRunsEncodedInstruction := by
  intro s i hrun hpc hbytes
  refine stepRunsDecodedInstruction s i [] hrun hpc ?_
  rw [hbytes]
  exact decodeBytes_encodeBytes i []

/-! ## What a step comes to (R104) -/

theorem state_of_exec_halt {s t : State} (h : exec .halt s = .next t) : t.state = .halted := by
  cases h; rfl

/-- A step that stays in RUNNING ran an instruction, and not HALT: each fault ends FAULTED. -/
theorem fetches_of_step_to_running {s t : State} (hstep : step s = .next t) (ht : t.state = .running) :
    ∃ i, Fetches s i ∧ i ≠ .halt ∧ exec i s.advancePc = .next t := by
  rcases step_effect hstep with rfl | ⟨-, v, rfl⟩ | ⟨i, hfetch, hexec⟩
  · cases ht
  · cases ht
  · refine ⟨i, hfetch, ?_, hexec⟩
    rintro rfl
    exact absurd ((state_of_exec_halt hexec).symm.trans ht) (by decide)

/-- Settles O17: the run state after the step says which of the three outcomes it is. -/
theorem stepHasThreeOutcomes : Obligations.StepHasThreeOutcomes := by
  intro s hrun
  obtain ⟨t, hstep⟩ := exists_step_of_running hrun
  refine ⟨t, hstep, ?_⟩
  rcases step_status hstep with ⟨hrunning, hlatch⟩ | hhalted | hfaulted
  · exact .inl ⟨hrunning, hlatch, fetches_of_step_to_running hstep hrunning⟩
  · exact .inr (.inl hhalted)
  · exact .inr (.inr hfaulted)

/-! ## Any number of steps (R108, R109) -/

/-- The first of several steps that all give a next state. -/
theorem first_step_of_core_run {n : Nat} {s t : State} (h : core.run (n + 1) s = .next t) :
    ∃ u, step s = .next u ∧ core.run n u = .next t := by
  have hrun : s.state = .running := by
    by_contra hne
    exact core_run_stopped n hne t h
  obtain ⟨u, hstep⟩ := exists_step_of_running hrun
  exact ⟨u, hstep, (core_run_next n hstep).symm.trans h⟩

/-- No more steps can be taken than lead to a state that is not RUNNING (R100). -/
theorem core_run_le_of_stopped {n m : Nat} {s t u : State} (ht : core.run n s = .next t)
    (hstop : t.state ≠ .running) (hu : core.run m s = .next u) : m ≤ n := by
  induction n generalizing m s with
  | zero =>
    cases ht
    cases m with
    | zero => exact Nat.le_refl 0
    | succ m => exact absurd hu (core_run_stopped m hstop u)
  | succ n ih =>
    cases m with
    | zero => exact Nat.zero_le _
    | succ m =>
      obtain ⟨v, hstep, ht⟩ := first_step_of_core_run ht
      exact Nat.succ_le_succ (ih ht ((core_run_next m hstep).symm.trans hu))

theorem step_self_jump {s : State} {nnn : Addr12} (hfetch : Fetches s (.jp nnn)) (hself : s.pc.toNat = nnn.toNat) :
    step s = .next s := by
  have htarget : jumpTarget nnn = s.pc := BitVec.eq_of_toNat_eq ((toNat_jumpTarget nnn).trans hself.symm)
  calc step s = .next (s.advancePc.setPc (jumpTarget nnn)) := step_of_fetches hfetch
    _ = .next s := by rw [htarget]; rfl

/-- Settles O54, by induction on the steps: each gives the state back. -/
theorem selfJumpNeverEnds : Obligations.SelfJumpNeverEnds := by
  intro s nnn hfetch hself n
  induction n with
  | zero => exact core_run_zero s
  | succ n ih => exact (core_run_next n (step_self_jump hfetch hself)).trans ih

/-! ## Where a run under fuel ends (R107, R109) -/

/-- `t` is where a run of at most `fuel` steps from `s` ends: no step of the fuel is left, or `t` is not RUNNING.
`runLoop_ends` ties it to `runLoop`. -/
def RunEnds (fuel : Nat) (s t : State) : Prop :=
  ∃ n ≤ fuel, core.run n s = .next t ∧ (t.state = .running → n = fuel)

/-- What `run` returns when it ends in `t`. No run ends in READY, where the value is arbitrary. `runLoop_ends` ties it
to `runLoop`. -/
def runResult (t : State) : RunOutcome :=
  match t.state with
  | .halted => .ok t
  | .faulted => .err t.fault t
  | .running => .outOfFuel t
  | .ready => .refused

theorem runResult_eq_ok_iff (u t : State) : runResult u = .ok t ↔ u = t ∧ t.state = .halted := by
  unfold runResult
  split <;> grind

theorem runResult_eq_err_iff (u t : State) (f : FaultLatch) :
    runResult u = .err f t ↔ u = t ∧ t.state = .faulted ∧ t.fault = f := by
  unfold runResult
  split <;> grind

theorem runResult_eq_outOfFuel_iff (u t : State) : runResult u = .outOfFuel t ↔ u = t ∧ t.state = .running := by
  unfold runResult
  split <;> grind

/-- A run under fuel ends in one state only: neither of two ends can have more steps than the other. -/
theorem RunEnds.unique {fuel : Nat} {s t u : State} (ht : RunEnds fuel s t) (hu : RunEnds fuel s u) : t = u := by
  have le_of_ends {n m : Nat} {t u : State} (hm : m ≤ fuel) (ht : core.run n s = .next t)
      (hspent : t.state = .running → n = fuel) (hu : core.run m s = .next u) : m ≤ n := by
    by_cases hrun : t.state = .running
    · exact hspent hrun ▸ hm
    · exact core_run_le_of_stopped ht hrun hu
  obtain ⟨n, hn, ht, htspent⟩ := ht
  obtain ⟨m, hm, hu, huspent⟩ := hu
  obtain rfl : n = m := Nat.le_antisymm (le_of_ends hn hu huspent ht) (le_of_ends hm ht htspent hu)
  exact Host.Outcome.next.inj (ht.symm.trans hu)

/-- A run goes on from the state its first step gives, to the same end. -/
theorem RunEnds.step {fuel : Nat} {s u t : State} (hstep : step s = .next u) (h : RunEnds fuel u t) :
    RunEnds (fuel + 1) s t := by
  obtain ⟨n, hn, ht, hspent⟩ := h
  exact ⟨n + 1, Nat.succ_le_succ hn, (core_run_next n hstep).trans ht, fun hrun => congrArg (· + 1) (hspent hrun)⟩

/-- A run ends at once in a state that is not RUNNING. -/
theorem RunEnds.stopped (fuel : Nat) {s : State} (h : s.state ≠ .running) : RunEnds fuel s s :=
  ⟨0, Nat.zero_le fuel, core_run_zero s, fun hrun => absurd hrun h⟩

/-- One pass of the loop, for the run states a step can lead to (R107). -/
theorem runLoop_step (k : Nat) {s t : State} (hstep : step s = .next t) :
    runLoop (k + 1) s = if t.state = .running then runLoop k t else runResult t := by
  rcases step_status hstep with ⟨ht, -⟩ | ⟨ht, -⟩ | ⟨ht, -⟩ <;> simp [runLoop, hstep, ht, runResult]

theorem runLoop_ends (fuel : Nat) {s : State} (hrun : s.state = .running) :
    ∃ t, RunEnds fuel s t ∧ runLoop fuel s = runResult t := by
  induction fuel generalizing s with
  | zero => exact ⟨s, ⟨0, Nat.le_refl 0, core_run_zero s, fun _ => rfl⟩, by simp [runLoop, runResult, hrun]⟩
  | succ k ih =>
    obtain ⟨u, hstep⟩ := exists_step_of_running hrun
    rw [runLoop_step k hstep]
    split
    · next hu =>
      obtain ⟨t, hends, hloop⟩ := ih hu
      exact ⟨t, hends.step hstep, hloop⟩
    · next hu => exact ⟨u, (RunEnds.stopped k hu).step hstep, rfl⟩

/-- What the loop answers is the result of the one state it ends in. -/
theorem runLoop_eq_iff (fuel : Nat) {s : State} (hrun : s.state = .running) (o : RunOutcome) :
    runLoop fuel s = o ↔ ∃ t, RunEnds fuel s t ∧ runResult t = o := by
  obtain ⟨t, hends, hloop⟩ := runLoop_ends fuel hrun
  rw [hloop]
  refine ⟨fun ho => ⟨t, hends, ho⟩, ?_⟩
  rintro ⟨u, hu, ho⟩
  rw [hends.unique hu, ho]

/-- From RUNNING, an end that `P` says is not RUNNING takes a step at least. -/
theorem runEnds_and_stopped_iff {fuel : Nat} {s t : State} {P : Prop} (hrun : s.state = .running)
    (hP : P → t.state ≠ .running) :
    RunEnds fuel s t ∧ P ↔ ∃ n < fuel, core.run (n + 1) s = .next t ∧ P := by
  constructor
  · rintro ⟨⟨n, hn, hends, -⟩, hp⟩
    cases n with
    | zero => cases hends; exact absurd hrun (hP hp)
    | succ n => exact ⟨n, hn, hends, hp⟩
  · rintro ⟨n, hn, hends, hp⟩
    exact ⟨⟨n + 1, hn, hends, fun hrunning => absurd hrunning (hP hp)⟩, hp⟩

/-- An end that is RUNNING has taken all the steps of the fuel. -/
theorem runEnds_running_iff {fuel : Nat} {s t : State} (ht : t.state = .running) :
    RunEnds fuel s t ↔ core.run fuel s = .next t := by
  constructor
  · rintro ⟨n, -, hends, hspent⟩
    exact hspent ht ▸ hends
  · intro hends
    exact ⟨fuel, Nat.le_refl fuel, hends, fun _ => rfl⟩

theorem run_of_ready_or_halted (fuel : Nat) {s : State} (hs : s.state = .ready ∨ s.state = .halted) :
    run fuel s = runLoop fuel { s with state := .running } := by
  rcases hs with hs | hs <;> simp only [run, hs]

/-- Settles O53: the result names the run state of the one state in which the run ends. -/
theorem runReturnsAtFirstStop : Obligations.RunReturnsAtFirstStop := by
  intro fuel s t hs
  have answers (o : RunOutcome) := runLoop_eq_iff fuel (s := { s with state := .running }) rfl o
  rw [run_of_ready_or_halted fuel hs]
  refine ⟨?halt, fun f => ?fault, ?spent⟩
  case halt =>
    simp only [answers, runResult_eq_ok_iff, existsAndEq, true_and]
    exact runEnds_and_stopped_iff rfl fun ht => by rw [ht]; decide
  case fault =>
    simp only [answers, runResult_eq_err_iff, existsAndEq, true_and]
    exact runEnds_and_stopped_iff rfl fun ⟨ht, _⟩ => by rw [ht]; decide
  case spent =>
    simp only [answers, runResult_eq_outOfFuel_iff, existsAndEq, true_and]
    exact and_congr_left runEnds_running_iff

end Sys2Proof.Safety
end

/-! # Proofs: control transfer (41_control.md) -/

section

namespace Sys2Proof

/-! ## The words of HALT, RET, JP and CALL -/

/-- An instruction has one word, its encoding. -/
theorem decode_eq_instr_iff (w : Word) (i : Instr) : decode w = .instr i ↔ w = encode i :=
  ⟨fun h => (encode_of_decode h).symm, fun h => h ▸ decode_encode i⟩

end Sys2Proof

namespace Sys2Proof.Safety

open Sys2Proof.Machine

/-! ## HALT and JP (R120, R123) -/

/-- Settles O24: HALT's word is its encoding, and its effect writes the run state alone. -/
theorem haltStopsTheRun : Obligations.HaltStopsTheRun :=
  ⟨fun w => decode_eq_instr_iff w .halt,
    fun _ => ⟨_, rfl, rfl, rfl, rfl, fun _ => rfl, ⟨fun _ => rfl, rfl⟩, rfl, rfl, rfl⟩⟩

/-- Only pc is written by a jump. -/
theorem onlyPc_setPc (s : State) (target : Word) : OnlyPc s (s.setPc target) :=
  ⟨fun _ => rfl, ⟨fun _ => rfl, rfl⟩, rfl, ⟨rfl, rfl⟩, rfl, rfl⟩

/-- Settles O26: the family nibble alone selects JP. -/
theorem jpSetsPc : Obligations.JpSetsPc :=
  ⟨fun _ hw => decode_C1 (fieldC_of_and_F000 hw),
    fun nnn s => ⟨s.setPc (jumpTarget nnn), rfl, toNat_jumpTarget nnn, onlyPc_setPc s _⟩⟩

/-! ## RET and CALL by the depth of the stack (R122, R125) -/

theorem exec_ret_pending {s : State} {p : Fin 16} (hp : s.sp.val = p.val + 1) :
    exec .ret s = .next { s with
      sp := p.castSucc, pc := s.stack[p.val]'p.isLt, stack := (stackPop s.stack p).2 } := by
  rcases execRet_cases s with ⟨hzero, -⟩ | ⟨q, hq, hexec⟩
  · omega
  · obtain rfl : p = q := Fin.ext (by omega)
    exact hexec

theorem exec_ret_empty {s : State} (hsp : s.sp.val = 0) :
    exec .ret s = .next (s.raise .stackUnderflow s.insnAddr 0x00EE#16) := by
  rcases execRet_cases s with ⟨-, hexec⟩ | ⟨q, hq, -⟩
  · exact hexec
  · omega

theorem exec_call_below_limit {s : State} {p : Fin 16} (nnn : Addr12) (hp : s.sp.val = p.val) :
    exec (.call nnn) s = .next { s with
      stack := stackPush s.stack s.pc p, sp := p.succ, pc := jumpTarget nnn } := by
  rcases execCall_cases nnn s with ⟨q, hq, hexec⟩ | ⟨hfull, -⟩
  · obtain rfl : p = q := Fin.ext (by omega)
    exact hexec
  · omega

theorem exec_call_full {s : State} (nnn : Addr12) (hsp : s.sp.val = 16) :
    exec (.call nnn) s = .next (s.raise .stackOverflow s.insnAddr (encode (.call nnn))) := by
  rcases execCall_cases nnn s with ⟨q, hq, -⟩ | ⟨-, hexec⟩
  · omega
  · exact hexec

/-- A fault raised by the step of the instruction at pc: what it records and what it leaves (R214, R216). -/
theorem advancePc_raise_effect (s : State) (code : FaultCode) (addr word : Word) :
    EnteredFault code addr word (s.advancePc.raise code addr word) ∧
      (s.advancePc.raise code addr word).pc = s.pc + 2#16 ∧
      SameBesidesPcAndStatus s (s.advancePc.raise code addr word) :=
  ⟨⟨rfl, rfl, rfl, rfl⟩, rfl, fun _ => rfl, ⟨fun _ => rfl, rfl⟩, rfl, rfl, rfl⟩

/-- Settles O25: with sp = k + 1 by the pop of slot k, with sp = 0 by the fault at the address before the fetch's
advance. -/
theorem retPopsReturnAddress : Obligations.RetPopsReturnAddress := by
  refine ⟨fun w => decode_eq_instr_iff w .ret, fun s k hk => ?pop, fun s hfetch hsp => ?underflow⟩
  case pop =>
    refine ⟨_, exec_ret_pending hk, rfl, rfl, ?cleared, fun j hj => ?others, fun _ => rfl, ⟨fun _ => rfl, rfl⟩,
      rfl, rfl, rfl⟩
    case cleared => exact (getElem_stackPop s.stack k k).trans (if_pos rfl)
    case others => exact (getElem_stackPop s.stack k j).trans (if_neg hj)
  case underflow =>
    have hexec : exec .ret s.advancePc = .next (s.advancePc.raise .stackUnderflow s.pc 0x00EE#16) := by
      rw [exec_ret_empty (s := s.advancePc) hsp, advancePc_insnAddr]
    exact ⟨_, (step_of_fetches hfetch).trans hexec, advancePc_raise_effect s _ _ _⟩

/-- Settles O27: with sp = k by the push at slot k, with sp = 16 by the fault, whose word is the one fetched since the
instruction encodes to it. -/
theorem callPushesReturnAddress : Obligations.CallPushesReturnAddress := by
  refine ⟨fun w hw => decode_C2 (fieldC_of_and_F000 hw), fun nnn s k hk => ?push, fun s nnn hfetch hsp => ?overflow⟩
  case push =>
    refine ⟨_, exec_call_below_limit nnn hk, rfl, toNat_jumpTarget nnn, ?pushed, fun j hj => ?others, fun _ => rfl,
      ⟨fun _ => rfl, rfl⟩, rfl, rfl, rfl⟩
    case pushed => exact (getElem_stackPush s.stack s.pc k k).trans (if_pos rfl)
    case others => exact (getElem_stackPush s.stack s.pc k j).trans (if_neg hj)
  case overflow =>
    have ⟨_, _, hdecode⟩ := hfetch
    have hexec : exec (.call nnn) s.advancePc =
        .next (s.advancePc.raise .stackOverflow s.pc (wordAtPc s)) := by
      rw [exec_call_full (s := s.advancePc) nnn hsp, advancePc_insnAddr, encode_of_decode hdecode]
    exact ⟨_, (step_of_fetches hfetch).trans hexec, advancePc_raise_effect s _ _ _⟩

/-! ## Slots that steps keep (R124) -/

/-- An instruction changes no slot that is below sp both before and after it: CALL writes slot sp, and RET the slot
that sp comes down to. -/
theorem exec_keeps_slot {i : Instr} {s t : State} (h : exec i s = .next t) {k : Fin 16} (hs : k.val < s.sp.val)
    (ht : k.val < t.sp.val) : t.stack[k.val]'k.isLt = s.stack[k.val]'k.isLt := by
  cases exec_effect h with
  | regs frame =>
    obtain ⟨-, -, -, -, ⟨-, hstack⟩, -⟩ := frame
    rw [hstack]
  | skip _ | halt | jump | fault _ => rfl
  | @push nnn _ p hp =>
    have hne : k ≠ p := by rintro rfl; omega
    exact (getElem_stackPush s.stack s.pc p k).trans (if_neg hne)
  | @pop _ p hp =>
    have hlt : k.val < p.val := ht
    have hne : k ≠ p := by rintro rfl; omega
    exact (getElem_stackPop s.stack p k).trans (if_neg hne)

theorem step_keeps_slot {s t : State} (h : step s = .next t) {k : Fin 16} (hs : k.val < s.sp.val)
    (ht : k.val < t.sp.val) : t.stack[k.val]'k.isLt = s.stack[k.val]'k.isLt := by
  rcases step_effect h with rfl | ⟨-, v, rfl⟩ | ⟨i, -, hexec⟩
  · rfl
  · rfl
  · exact exec_keeps_slot hexec hs ht

/-- Steps with sp at least `depth` before each that end with sp at least `depth` also begin so. -/
theorem StepsAbove.depth_le {depth : Nat} {s t : State} (h : StepsAbove depth s t) (ht : depth ≤ t.sp.val) :
    depth ≤ s.sp.val := by
  cases h with
  | refl => exact ht
  | step hs _ _ => exact hs

/-- Steps that never leave sp below `depth` change no slot below `depth`. -/
theorem StepsAbove.keeps_slot {depth : Nat} {s t : State} (h : StepsAbove depth s t) (ht : depth ≤ t.sp.val)
    {k : Fin 16} (hk : k.val < depth) : t.stack[k.val]'k.isLt = s.stack[k.val]'k.isLt := by
  induction h with
  | refl => rfl
  | step hs hstep hrest ih =>
    have hu := hrest.depth_le ht
    exact (ih ht).trans (step_keeps_slot hstep (by omega) (by omega))

/-- Settles O28: CALL leaves its return address in slot p, the steps between keep slot p and those below it, and RET
pops slot p. -/
theorem callAndRetPair : Obligations.CallAndRetPair := by
  intro s t u v nnn hcall hsp hcall_step habove hret husp hret_step
  obtain ⟨p, hp⟩ : ∃ p : Fin 16, s.sp.val = p.val := ⟨⟨s.sp.val, hsp⟩, rfl⟩
  have hup : u.sp.val = p.val + 1 := husp.trans (congrArg (· + 1) hp)
  have ht := (hcall_step.symm.trans (step_of_fetches hcall)).trans (exec_call_below_limit nnn hp)
  have hv := (hret_step.symm.trans (step_of_fetches hret)).trans (exec_ret_pending hup)
  cases ht
  cases hv
  have hkept {k : Fin 16} (hk : k.val < s.sp.val + 1) := habove.keeps_slot husp.ge hk
  refine ⟨Fin.ext hp.symm, ?returnAddress, fun k hk => ?earlierSlots⟩
  case returnAddress => exact (hkept (by omega)).trans ((getElem_stackPush s.stack _ p p).trans (if_pos rfl))
  case earlierSlots =>
    have hne : k ≠ p := by rintro rfl; omega
    calc (stackPop u.stack p).2[k.val]'k.isLt
        = u.stack[k.val]'k.isLt := (getElem_stackPop u.stack p k).trans (if_neg hne)
      _ = (stackPush s.stack _ p)[k.val]'k.isLt := hkept (by omega)
      _ = s.stack[k.val]'k.isLt := (getElem_stackPush s.stack _ p k).trans (if_neg hne)

end Sys2Proof.Safety
end

/-! # Proofs: conditional skips (42_skip.md) -/

section

namespace Sys2Proof.Machine

/-! ## A skip by its condition (R140) -/

theorem not_operandsEqual_iff (x : Reg) (src : Source) (s : State) :
    (!operandsEqual x src s) = true ↔ s.reg x ≠ s.source src := by
  rw [Bool.not_eq_true', ← Bool.not_eq_true, operandsEqual_iff]

/-- Operands are compared as u8 values, with no sign (R141). -/
theorem operandsEqual_iff_toNat (x : Reg) (src : Source) (s : State) :
    operandsEqual x src s = true ↔ (s.reg x).toNat = (s.source src).toNat :=
  (operandsEqual_iff x src s).trans BitVec.toNat_inj.symm

theorem not_operandsEqual_iff_toNat (x : Reg) (src : Source) (s : State) :
    (!operandsEqual x src s) = true ↔ (s.reg x).toNat ≠ (s.source src).toNat :=
  (not_operandsEqual_iff x src s).trans BitVec.toNat_inj.symm.not

/-- `skipIf_eq`, on the condition in the form a statement gives it. -/
theorem skipIf_of_iff {b : Bool} {p : Prop} [Decidable p] (hb : b = true ↔ p) (s : State) :
    skipIf b s = .next (s.setPc (if p then s.pc + 2#16 else s.pc)) := by
  rw [skipIf_eq, ite_cond_congr (propext hb)]
  rfl

end Sys2Proof.Machine

namespace Sys2Proof.Safety

open Sys2Proof.Machine

/-- Everything a skip on condition `p` does after the fetch (R140, R146). -/
theorem exec_skip {i : Instr} {s : State} {b : Bool} {p : Prop} [Decidable p] (hi : exec i s = skipIf b s)
    (hb : b = true ↔ p) :
    ∃ t, exec i s = .next t ∧ t.pc = (if p then s.pc + 2#16 else s.pc) ∧ OnlyPc s t :=
  ⟨_, hi.trans (skipIf_of_iff hb s), rfl, onlyPc_setPc s _⟩

/-! ## The distance of a whole step (R145) -/

/-- The step of a skip on condition `p`: the fetch's advance and a taken skip's, neither of which wraps from a pc that
was fetched at. -/
theorem step_skip {i : Instr} {s : State} {b : Bool} {p : Prop} [Decidable p] (hfetch : Fetches s i)
    (hi : exec i s.advancePc = skipIf b s.advancePc) (hb : b = true ↔ p) :
    ∃ t, step s = .next t ∧ t.state = .running ∧ OnlyPc s t ∧
      t.pc.toNat = s.pc.toNat + (if p then 4 else 2) := by
  have hstep := (step_of_fetches hfetch).trans (hi.trans (skipIf_of_iff hb _))
  obtain ⟨hrun, hpc, -⟩ := hfetch
  have hfetched : (s.pc + 2#16).toNat = s.pc.toNat + 2 := toNat_add_two (by omega)
  refine ⟨_, hstep, hrun, onlyPc_setPc s _, ?distance⟩
  rw [setPc_pc, advancePc_pc]
  split
  case isTrue => rw [toNat_add_two (by omega), hfetched]
  case isFalse => exact hfetched

/-- `step_skip`, for a skip whose rule names the condition that stops it. -/
theorem step_skip_unless {i : Instr} {s : State} {b : Bool} {p : Prop} [Decidable p] (hfetch : Fetches s i)
    (hi : exec i s.advancePc = skipIf b s.advancePc) (hb : b = true ↔ ¬p) :
    ∃ t, step s = .next t ∧ t.state = .running ∧ OnlyPc s t ∧
      t.pc.toNat = s.pc.toNat + (if p then 2 else 4) := by
  simpa only [ite_not] using step_skip hfetch hi hb

/-- Settles O33: SE skips on its operands' equality, SNE unless they are equal, and the fetch leaves the operands
as they are. -/
theorem skipDistanceIsFourOrTwo : Obligations.SkipDistanceIsFourOrTwo := by
  intro s x y nn
  refine ⟨fun h => ?seImm, fun h => ?sneImm, fun h => ?seReg, fun h => ?sneReg⟩
  case seImm => exact step_skip h rfl (operandsEqual_iff x (.imm nn) s.advancePc)
  case sneImm => exact step_skip_unless h rfl (not_operandsEqual_iff x (.imm nn) s.advancePc)
  case seReg => exact step_skip h rfl (operandsEqual_iff x (.reg y) s.advancePc)
  case sneReg => exact step_skip_unless h rfl (not_operandsEqual_iff x (.reg y) s.advancePc)

/-! ## Skips by an immediate (R141, R142) -/

/-- Settles O29: the family nibble alone selects SE Vx, nn, a skip on its operands' equality. -/
theorem skipIfEqualImmediate : Obligations.SkipIfEqualImmediate :=
  ⟨fun _ hw => decode_C3 (fieldC_of_and_F000 hw),
    fun x nn s => exec_skip rfl (operandsEqual_iff_toNat x (.imm nn) s)⟩

/-- Settles O30: the family nibble alone selects SNE Vx, nn, a skip on its operands' difference. -/
theorem skipIfNotEqualImmediate : Obligations.SkipIfNotEqualImmediate :=
  ⟨fun _ hw => decode_C4 (fieldC_of_and_F000 hw),
    fun x nn s => exec_skip rfl (not_operandsEqual_iff_toNat x (.imm nn) s)⟩

/-! ## Skips by a register (R143, R144) -/

/-- Settles O31: C = 5 hands the word to `decodeSkip`, which looks at D, and a register equals itself. -/
theorem skipIfRegistersEqual : Obligations.SkipIfRegistersEqual := by
  refine ⟨fun w hw => ?legal, fun w hw => ?illegal, fun x y s => ?effect⟩
  case legal => exact (decode_C5 (fieldC_of_and_F00F hw)).trans (decodeSkip_of_D0 (fieldD_of_and_F00F hw))
  case illegal => exact fun hd => (decode_C5 (fieldC_of_and_F000 hw)).trans (decodeSkip_of_D_ne_0 hd)
  case effect =>
    obtain ⟨t, hexec, hpc, frame⟩ := exec_skip (i := .seReg x y) rfl (operandsEqual_iff_toNat x (.reg y) s)
    refine ⟨t, hexec, hpc, ?sameRegister, frame⟩
    rintro rfl
    exact hpc.trans (if_pos rfl)

/-- Settles O32: C = 9 hands the word to `decodeSkip`, which looks at D, and a register does not differ from itself. -/
theorem skipIfRegistersDiffer : Obligations.SkipIfRegistersDiffer := by
  refine ⟨fun w hw => ?legal, fun w hw => ?illegal, fun x y s => ?effect⟩
  case legal => exact (decode_C9 (fieldC_of_and_F00F hw)).trans (decodeSkip_of_D0 (fieldD_of_and_F00F hw))
  case illegal => exact fun hd => (decode_C9 (fieldC_of_and_F000 hw)).trans (decodeSkip_of_D_ne_0 hd)
  case effect =>
    obtain ⟨t, hexec, hpc, frame⟩ := exec_skip (i := .sneReg x y) rfl (not_operandsEqual_iff_toNat x (.reg y) s)
    refine ⟨t, hexec, hpc, ?sameRegister, frame⟩
    rintro rfl
    exact hpc.trans (if_neg fun hne => hne rfl)

end Sys2Proof.Safety
end

/-! # Proofs: register loads and arithmetic-logic (43_load_alu.md) -/

section

namespace Sys2Proof

/-- A word with C and D of `p` is the instruction of format RR that encodes to them (R82, R89). -/
theorem decode_of_and_F00F {w p : Word} {i : Instr} (hw : w &&& 0xF00F#16 = p)
    (hi : encode i = encodeRR (fieldC p) (fieldX w) (fieldY w) (fieldD p)) : decode w = .instr i :=
  (decode_eq_instr_iff w i).mpr (hi.trans (encodeRR_of_C_D (fieldC_of_and_F00F hw) (fieldD_of_and_F00F hw))).symm

end Sys2Proof

namespace Sys2Proof.Machine

/-! ## The flag register by itself (R21) -/

@[simp] theorem reg_setFlag_self (s : State) (f : Byte) : (s.setFlag f).reg 15#4 = f := reg_setReg_self s 15#4 f

theorem reg_setFlag_ne (s : State) {q : Reg} (f : Byte) (h : q ≠ 15#4) : (s.setFlag f).reg q = s.reg q :=
  reg_setReg_ne s f h

/-- A flag value, on the condition in the form a statement gives it. -/
theorem flagByte_of_iff {b : Bool} {p : Prop} [Decidable p] (hb : b = true ↔ p) :
    flagByte b = if p then 1#8 else 0#8 :=
  ite_cond_congr (propext hb)

/-! ## ADD and SUBN by their conditions (R172, R177) -/

theorem execState_addReg_of_le {x y : Reg} {s : State} (h : (s.reg x).toNat + (s.reg y).toNat ≤ 255) :
    execState (.addReg x y) s = s.setReg x (s.reg x + s.reg y) :=
  (execState_addReg x y s).trans (if_neg fun ho => absurd ((addOverflows_iff _ _).mp ho) (by omega))

theorem execState_addReg_of_lt {x y : Reg} {s : State} (h : 255 < (s.reg x).toNat + (s.reg y).toNat) :
    execState (.addReg x y) s = s.setFlag 1#8 :=
  (execState_addReg x y s).trans (if_pos ((addOverflows_iff _ _).mpr h))

theorem execState_subnReg_of_lt {x y : Reg} {s : State} (h : (s.reg y).toNat < (s.reg x).toNat) :
    execState (.subnReg x y) s = s.setFlag 1#8 :=
  (execState_subnReg x y s).trans (if_pos ((reverseBorrows_iff _ _).mpr h))

theorem execState_subnReg_of_le {x y : Reg} {s : State} (h : (s.reg x).toNat ≤ (s.reg y).toNat) :
    execState (.subnReg x y) s = (s.setReg x (s.reg y - s.reg x)).setFlag 0#8 :=
  (execState_subnReg x y s).trans (if_neg fun hb => absurd ((reverseBorrows_iff _ _).mp hb) (by omega))

/-! ## The two shifts (R176, R178) -/

/-- VF takes `flag` of Vx, then Vx, read again, takes `op` of itself. `exec_shr` and `exec_shl` tie it to the model. -/
def State.shiftReg (s : State) (flag op : Byte → Byte) (x : Reg) : State :=
  (s.setFlag (flag (s.reg x))).setReg x (op ((s.setFlag (flag (s.reg x))).reg x))

theorem exec_shr (x y : Reg) (s : State) :
    exec (.shr x y) s = .next (s.shiftReg shiftedOutRight (· >>> 1) x) := rfl

theorem exec_shl (x y : Reg) (s : State) :
    exec (.shl x y) s = .next (s.shiftReg shiftedOutLeft (· <<< 1) x) := rfl

/-- Off the flag register the two writes do not meet. -/
theorem reg_shiftReg_of_ne (s : State) (flag op : Byte → Byte) {x : Reg} (hx : x ≠ 15#4) :
    (s.shiftReg flag op x).reg 15#4 = flag (s.reg x) ∧ (s.shiftReg flag op x).reg x = op (s.reg x) := by
  unfold State.shiftReg
  rw [reg_setReg_self, reg_setReg_ne _ _ hx.symm, reg_setFlag_self, reg_setFlag_ne s _ hx]
  exact ⟨rfl, rfl⟩

/-- On the flag register the second write reads what the first one left. -/
theorem reg_shiftReg_flag (s : State) (flag op : Byte → Byte) :
    (s.shiftReg flag op 15#4).reg 15#4 = op (flag (s.reg 15#4)) := by
  unfold State.shiftReg
  rw [reg_setReg_self, reg_setFlag_self]

theorem toNat_shiftedOutRight (v : Byte) : (shiftedOutRight v).toNat = v.toNat % 2 := by
  simp [shiftedOutRight, Nat.and_one_is_mod]

theorem toNat_shiftedOutLeft (v : Byte) : (shiftedOutLeft v).toNat = v.toNat / 128 := by
  rw [shiftedOutLeft, BitVec.toNat_and, BitVec.toNat_ushiftRight, Nat.shiftRight_eq_div_pow]
  exact (Nat.and_one_is_mod _).trans (Nat.mod_eq_of_lt (by omega))

theorem toNat_shiftRight_one (v : Byte) : (v >>> 1).toNat = v.toNat / 2 := by
  simp [Nat.shiftRight_eq_div_pow]

theorem toNat_shiftLeft_one (v : Byte) : (v <<< 1).toNat = v.toNat * 2 % 256 := by
  simp [Nat.shiftLeft_eq]

/-- Bit 0 alone, shifted right, is gone. -/
theorem shiftedOutRight_shiftRight (v : Byte) : shiftedOutRight v >>> 1 = 0#8 := by
  apply BitVec.eq_of_toNat_eq
  rw [toNat_shiftRight_one, toNat_shiftedOutRight]
  exact Nat.div_eq_of_lt (Nat.mod_lt _ Nat.two_pos)

/-- Bit 7 alone, moved to place 0 and shifted left, is worth 2. -/
theorem shiftedOutLeft_shiftLeft (v : Byte) : shiftedOutLeft v <<< 1 = if 128 ≤ v.toNat then 2#8 else 0#8 := by
  apply BitVec.eq_of_toNat_eq
  rw [toNat_shiftLeft_one, toNat_shiftedOutLeft]
  have hv := v.isLt
  split
  case isTrue h => rw [show v.toNat / 128 = 1 by omega]; rfl
  case isFalse h => rw [show v.toNat / 128 = 0 by omega]; rfl

end Sys2Proof.Machine

namespace Sys2Proof.Safety

open Sys2Proof.Machine

/-! ## The frames of the register writers -/

theorem onlyRegs_setReg (s : State) (x : Reg) (v : Byte) : OnlyRegs [x] s (s.setReg x v) :=
  (OnlyRegs.refl [x] s).setReg (.head _) v

theorem onlyRegs_setFlag (s : State) (f : Byte) : OnlyRegs [15#4] s (s.setFlag f) := onlyRegs_setReg s 15#4 f

theorem onlyRegs_setReg_setFlag (s : State) (x : Reg) (v f : Byte) :
    OnlyRegs [x, 15#4] s ((s.setReg x v).setFlag f) :=
  ((OnlyRegs.refl [x, 15#4] s).setReg (.head _) v).setFlag (.tail _ (.head _)) f

theorem onlyRegs_shiftReg (s : State) (flag op : Byte → Byte) (x : Reg) :
    OnlyRegs [x, 15#4] s (s.shiftReg flag op x) :=
  ((OnlyRegs.refl [x, 15#4] s).setFlag (.tail _ (.head _)) _).setReg (.head _) _

/-! ## Without a flag: loads, ADD of an immediate, OR, AND, XOR (R161 to R168) -/

/-- Settles O34: the family nibble alone selects LD Vx, nn, one register write. -/
theorem loadImmediate : Obligations.LoadImmediate :=
  ⟨fun _ hw => decode_C6 (fieldC_of_and_F000 hw),
    fun x nn s => ⟨_, rfl, reg_setReg_self s x nn, onlyRegs_setReg s x nn⟩⟩

/-- Settles O35: the family nibble alone selects ADD Vx, nn, one register write of a sum of bytes. -/
theorem addImmediateWraps : Obligations.AddImmediateWraps := by
  refine ⟨fun _ hw => decode_C7 (fieldC_of_and_F000 hw), fun x nn s => ⟨_, rfl, ?sum, onlyRegs_setReg s x _⟩⟩
  rw [reg_setReg_self]
  exact BitVec.toNat_add (s.reg x) nn

/-- Settles O36: C and D select LD Vx, Vy, one register write. -/
theorem copyRegister : Obligations.CopyRegister :=
  ⟨fun _ hw => decode_of_and_F00F hw rfl,
    fun x y s => ⟨_, rfl, reg_setReg_self s x (s.reg y), onlyRegs_setReg s x _⟩⟩

/-- What an instruction does that combines Vx and Vy bit by bit (R165). -/
theorem exec_bitwise {i : Instr} {x y : Reg} {s : State} {op : Byte → Byte → Byte} {bitOp : Bool → Bool → Bool}
    (hi : exec i s = combineInto op x (.reg y) s)
    (hop : ∀ (u v : Byte) (b : Nat), (op u v).getLsbD b = bitOp (u.getLsbD b) (v.getLsbD b)) :
    ∃ t, exec i s = .next t ∧ OnlyRegs [x] s t ∧
      ∀ b < 8, (t.reg x).getLsbD b = bitOp ((s.reg x).getLsbD b) ((s.reg y).getLsbD b) := by
  refine ⟨_, hi, onlyRegs_setReg s x _, fun b _ => ?_⟩
  rw [reg_setReg_self]
  exact hop (s.reg x) (s.reg y) b

/-- Settles O37: C and D select the operation, which the library describes bit by bit. -/
theorem bitwiseOperations : Obligations.BitwiseOperations :=
  ⟨fun _ => ⟨fun hw => decode_of_and_F00F hw rfl, fun hw => decode_of_and_F00F hw rfl,
      fun hw => decode_of_and_F00F hw rfl⟩,
    fun _ _ _ => ⟨exec_bitwise rfl fun _ _ _ => BitVec.getLsbD_or, exec_bitwise rfl fun _ _ _ => BitVec.getLsbD_and,
      exec_bitwise rfl fun _ _ _ => BitVec.getLsbD_xor⟩⟩

/-! ## With a flag: ADD, SUB, SUBN (R172, R174, R177) -/

/-- Settles O38: a sum up to 255 does not wrap, and an overflow writes the flag alone. -/
theorem addRegistersSetsOverflowFlag : Obligations.AddRegistersSetsOverflowFlag := by
  refine ⟨fun _ hw => decode_of_and_F00F hw rfl,
    fun x y s => ⟨_, exec_eq_next _ s, fun hfits => ?sum, fun hover => ?flag⟩⟩
  case sum =>
    rw [execState_addReg_of_le hfits, reg_setReg_self]
    exact ⟨BitVec.toNat_add_of_lt (by omega), onlyRegs_setReg s x _⟩
  case flag =>
    rw [execState_addReg_of_lt hover]
    exact ⟨reg_setFlag_self s 1#8, onlyRegs_setFlag s 1#8⟩

/-- Settles O39: the flag, computed on the old values, is written last, so it stands for every X. -/
theorem subSetsNoBorrowFlag : Obligations.SubSetsNoBorrowFlag := by
  refine ⟨fun _ hw => decode_of_and_F00F hw rfl,
    fun x y s => ⟨_, rfl, ?flag, fun hx => ?difference, onlyRegs_setReg_setFlag s x _ _⟩⟩
  case flag =>
    rw [reg_setFlag_self]
    exact flagByte_of_iff (noBorrow_iff (s.reg x) (s.reg y))
  case difference =>
    rw [reg_setFlag_ne _ _ hx, reg_setReg_self, BitVec.toNat_sub]
    omega

/-- Settles O41: a borrow writes the flag alone; otherwise the difference does not wrap and the flag is written last. -/
theorem reverseSubSetsBorrowFlag : Obligations.ReverseSubSetsBorrowFlag := by
  refine ⟨fun _ hw => decode_of_and_F00F hw rfl,
    fun x y s => ⟨_, exec_eq_next _ s, fun hborrow => ?borrow, fun hle => ?noBorrow⟩⟩
  case borrow =>
    rw [execState_subnReg_of_lt hborrow]
    exact ⟨reg_setFlag_self s 1#8, onlyRegs_setFlag s 1#8⟩
  case noBorrow =>
    rw [execState_subnReg_of_le hle]
    refine ⟨reg_setFlag_self _ 0#8, fun hx => ?_, onlyRegs_setReg_setFlag s x _ _⟩
    rw [reg_setFlag_ne _ _ hx, reg_setReg_self]
    exact BitVec.toNat_sub_of_le hle

/-! ## Shifts (R176, R178) -/

/-- What a shift does, by the values of its flag and its result on the old Vx and of its result on the flag. -/
theorem exec_shift {i : Instr} {x : Reg} {s : State} {flag op : Byte → Byte} {out shifted : Nat} {vf : Byte}
    (hi : exec i s = .next (s.shiftReg flag op x)) (hout : (flag (s.reg x)).toNat = out)
    (hshifted : (op (s.reg x)).toNat = shifted) (hvf : op (flag (s.reg x)) = vf) :
    ∃ t, exec i s = .next t ∧ (x ≠ 15#4 → (t.reg 15#4).toNat = out ∧ (t.reg x).toNat = shifted) ∧
      (x = 15#4 → t.reg 15#4 = vf) ∧ OnlyRegs [x, 15#4] s t := by
  refine ⟨_, hi, fun hx => ?apart, fun hx => ?same, onlyRegs_shiftReg s flag op x⟩
  case apart =>
    obtain ⟨hflag, hreg⟩ := reg_shiftReg_of_ne s flag op hx
    rw [hflag, hreg]
    exact ⟨hout, hshifted⟩
  case same =>
    subst hx
    exact (reg_shiftReg_flag s flag op).trans hvf

/-- Settles O40: SHR puts bit 0 out and halves, and half of a bit is 0. -/
theorem shiftRightByOne : Obligations.ShiftRightByOne :=
  ⟨fun _ hw => decode_of_and_F00F hw rfl,
    fun x y s => exec_shift (exec_shr x y s) (toNat_shiftedOutRight _) (toNat_shiftRight_one _)
      (shiftedOutRight_shiftRight _)⟩

/-- Settles O42: SHL puts bit 7 out and doubles, and the double of a bit is 2 or 0. -/
theorem shiftLeftByOne : Obligations.ShiftLeftByOne :=
  ⟨fun _ hw => decode_of_and_F00F hw rfl,
    fun x y s => exec_shift (exec_shl x y s) (toNat_shiftedOutLeft _) (toNat_shiftLeft_one _)
      (shiftedOutLeft_shiftLeft _)⟩

end Sys2Proof.Safety
end

/-! # Proofs: exceptions (60_exceptions.md) -/

section

namespace Sys2Proof.Safety

open Sys2Proof.Machine

/-! ## The codes and the decode fault (R202, R213) -/

/-- Settles O19: each number is an equation of the table's definition. -/
theorem faultCodesAreNumberedAsTabled : Obligations.FaultCodesAreNumberedAsTabled :=
  ⟨rfl, rfl, rfl, rfl, rfl, rfl⟩

/-- Settles O16: the decode fault is raised on the state the fetch has advanced, and FAULTED is not HALTED. -/
theorem illegalWordFaults : Obligations.IllegalWordFaults := by
  intro s hill
  obtain ⟨hentered, hpc, hframe⟩ := advancePc_raise_effect s .unrecognizedInstruction s.pc (wordAtPc s)
  exact ⟨_, step_of_fetchesIllegal hill, hentered, RunState.noConfusion, hpc, hframe⟩

/-! ## Why a step faults (R215, R251) -/

/-- The four causes of a step's fault, each with the code it raises, in the order they are checked (R215):
`FaultCause.step` and `faultCause_of_step` tie them to `step`. -/
inductive FaultCause (s : State) : FaultCode → Prop where
  /-- The fetch is out of bounds (R102). -/
  | fetch (hpc : 4094 < s.pc.toNat) : FaultCause s .addressOutOfBounds
  /-- The word is illegal (R202). -/
  | illegal (hill : FetchesIllegal s) : FaultCause s .unrecognizedInstruction
  /-- RET with no call pending (R205). -/
  | underflow (hfetch : Fetches s .ret) (hsp : s.sp.val = 0) : FaultCause s .stackUnderflow
  /-- CALL with the stack full (R206). -/
  | overflow {nnn : Addr12} (hfetch : Fetches s (.call nnn)) (hsp : s.sp.val = 16) : FaultCause s .stackOverflow

theorem FetchesIllegal.pc_le {s : State} (h : FetchesIllegal s) : s.pc.toNat ≤ 4094 := by
  obtain ⟨-, hle, -⟩ := h
  exact hle

theorem Fetches.pc_le {s : State} {i : Instr} (h : Fetches s i) : s.pc.toNat ≤ 4094 := by
  obtain ⟨-, hle, -⟩ := h
  exact hle

theorem exists_faultCause_iff (s : State) :
    (∃ code, FaultCause s code) ↔ 4094 < s.pc.toNat ∨ FetchesIllegal s ∨ (Fetches s .ret ∧ s.sp.val = 0) ∨
      ∃ nnn, Fetches s (.call nnn) ∧ s.sp.val = 16 := by
  constructor
  · rintro ⟨_, hpc | hill | ⟨hfetch, hsp⟩ | ⟨hfetch, hsp⟩⟩
    · exact .inl hpc
    · exact .inr (.inl hill)
    · exact .inr (.inr (.inl ⟨hfetch, hsp⟩))
    · exact .inr (.inr (.inr ⟨_, hfetch, hsp⟩))
  · rintro (hpc | hill | ⟨hfetch, hsp⟩ | ⟨_, hfetch, hsp⟩)
    · exact ⟨_, .fetch hpc⟩
    · exact ⟨_, .illegal hill⟩
    · exact ⟨_, .underflow hfetch hsp⟩
    · exact ⟨_, .overflow hfetch hsp⟩

/-- The code is that of the first check that fails. -/
theorem FaultCause.code_eq {s : State} {code : FaultCode} (h : FaultCause s code) :
    code = if 4094 < s.pc.toNat then .addressOutOfBounds
      else if isIllegal (wordAtPc s) then .unrecognizedInstruction
      else if s.sp.val = 0 then .stackUnderflow else .stackOverflow := by
  cases h with
  | fetch hpc => rw [if_pos hpc]
  | illegal hill =>
    obtain ⟨-, hle, hdecode⟩ := hill
    rw [if_neg (Nat.not_lt.mpr hle), if_pos (isIllegal_of_decode_unrecognized hdecode)]
  | underflow hfetch hsp | overflow hfetch hsp =>
    obtain ⟨-, hle, hdecode⟩ := hfetch
    simp [Nat.not_lt.mpr hle, isIllegal_of_decode_instr hdecode, hsp]

/-- A cause makes the step fault with its code, and all a fault leaves alone is as before (R216). -/
theorem FaultCause.step {s : State} {code : FaultCode} (hrun : s.state = .running) (h : FaultCause s code) :
    ∃ t addr word, step s = .next t ∧ EnteredFault code addr word t ∧
      t.pc = (if 4094 < s.pc.toNat then s.pc else s.pc + 2#16) ∧ SameBesidesPcAndStatus s t := by
  have advanced {t : State} (hle : s.pc.toNat ≤ 4094) (hpc : t.pc = s.pc + 2#16) :
      t.pc = if 4094 < s.pc.toNat then s.pc else s.pc + 2#16 :=
    hpc.trans (if_neg (Nat.not_lt.mpr hle)).symm
  cases h with
  | fetch hgt =>
    obtain ⟨t, hstep, hentered, hpc, hframe, -⟩ := fetchOutOfBoundsFaults s hrun hgt
    exact ⟨t, _, _, hstep, hentered, hpc.trans (if_pos hgt).symm, hframe⟩
  | illegal hill =>
    obtain ⟨t, hstep, hentered, -, hpc, hframe⟩ := illegalWordFaults s hill
    exact ⟨t, _, _, hstep, hentered, advanced hill.pc_le hpc, hframe⟩
  | underflow hfetch hsp =>
    obtain ⟨-, -, underflows⟩ := retPopsReturnAddress
    obtain ⟨t, hstep, hentered, hpc, hframe⟩ := underflows s hfetch hsp
    exact ⟨t, _, _, hstep, hentered, advanced hfetch.pc_le hpc, hframe⟩
  | overflow hfetch hsp =>
    obtain ⟨-, -, overflows⟩ := callPushesReturnAddress
    obtain ⟨t, hstep, hentered, hpc, hframe⟩ := overflows s _ hfetch hsp
    exact ⟨t, _, _, hstep, hentered, advanced hfetch.pc_le hpc, hframe⟩

theorem state_ite_ne_faulted {c : Prop} [Decidable c] {s t : State} (hs : s.state ≠ .faulted)
    (ht : t.state ≠ .faulted) : (if c then s else t).state ≠ .faulted := by
  split <;> assumption

/-- Only RET and CALL have a check of their own, and it fails at the two ends of the stack (R205, R206). -/
theorem stack_limit_of_exec_to_faulted {i : Instr} {s t : State} (h : exec i s = .next t)
    (hs : s.state ≠ .faulted) (ht : t.state = .faulted) :
    (i = .ret ∧ s.sp.val = 0) ∨ ∃ nnn, i = .call nnn ∧ s.sp.val = 16 := by
  obtain rfl := execState_of_exec h
  cases i with
  | ret =>
    rcases execRet_cases s with ⟨hsp, -⟩ | ⟨p, -, hpop⟩
    · exact .inl ⟨rfl, hsp⟩
    · rw [execState_of_exec (i := .ret) hpop] at ht
      exact absurd ht hs
  | call nnn =>
    rcases execCall_cases nnn s with ⟨p, -, hpush⟩ | ⟨hsp, -⟩
    · rw [execState_of_exec (i := .call nnn) hpush] at ht
      exact absurd ht hs
    · exact .inr ⟨nnn, rfl, hsp⟩
  | halt => exact RunState.noConfusion ht
  | seImm _ _ | sneImm _ _ | seReg _ _ | sneReg _ _ =>
    exact absurd ht (state_ite_ne_faulted (s := s.advancePc) hs hs)
  | addReg x y =>
    rw [execState_addReg] at ht
    exact absurd ht (state_ite_ne_faulted hs hs)
  | subnReg x y =>
    rw [execState_subnReg] at ht
    exact absurd ht (state_ite_ne_faulted hs hs)
  | jp _ | ldImm _ _ | addImm _ _ | ldReg _ _ | orReg _ _ | andReg _ _ | xorReg _ _ | subReg _ _ | shr _ _
  | shl _ _ => exact absurd ht hs

/-- What lies at pc in RUNNING: nothing to fetch, an illegal word, or an instruction (R101, R102). -/
theorem fetch_cases {s : State} (hrun : s.state = .running) :
    4094 < s.pc.toNat ∨ FetchesIllegal s ∨ ∃ i, Fetches s i := by
  rcases Nat.lt_or_ge 4094 s.pc.toNat with hgt | hle
  · exact .inl hgt
  · cases hdecode : decode (wordAtPc s) with
    | instr i => exact .inr (.inr ⟨i, hrun, hle, hdecode⟩)
    | unrecognized v =>
      obtain rfl := unrecognized_carries_word hdecode
      exact .inr (.inl ⟨hrun, hle, hdecode⟩)

/-- A step that ends FAULTED has one of the four causes. -/
theorem faultCause_of_step {s t : State} (hstep : step s = .next t) (ht : t.state = .faulted) :
    ∃ code, FaultCause s code := by
  have hrun := running_of_step hstep
  rcases fetch_cases hrun with hpc | hill | ⟨i, hfetch⟩
  · exact ⟨_, .fetch hpc⟩
  · exact ⟨_, .illegal hill⟩
  · have hexec : exec i s.advancePc = .next t := (step_of_fetches hfetch).symm.trans hstep
    have hs : s.advancePc.state ≠ .faulted := by rw [advancePc_state, hrun]; decide
    rcases stack_limit_of_exec_to_faulted hexec hs ht with ⟨rfl, hsp⟩ | ⟨nnn, rfl, hsp⟩
    · exact ⟨_, .underflow hfetch hsp⟩
    · exact ⟨_, .overflow hfetch hsp⟩

/-- What a cause says of the state the step gives, since a step gives one state only. -/
theorem FaultCause.effect {s t : State} {code : FaultCode} (h : FaultCause s code) (hstep : Machine.step s = .next t) :
    t.state = .faulted ∧ t.fault.code = code ∧
      t.pc = (if 4094 < s.pc.toNat then s.pc else s.pc + 2#16) ∧ SameBesidesPcAndStatus s t := by
  obtain ⟨u, _, _, hstep', ⟨hfaulted, hcode, -, -⟩, hpc, hframe⟩ := h.step (running_of_step hstep)
  obtain rfl : t = u := Host.Outcome.next.inj (hstep.symm.trans hstep')
  exact ⟨hfaulted, hcode, hpc, hframe⟩

/-- Settles O18: a step that ends FAULTED has a cause, a cause makes it end so, and the cause gives the code. -/
theorem stepFaultsExactlyWhen : Obligations.StepFaultsExactlyWhen := by
  intro s t _ hstep
  rw [← exists_faultCause_iff]
  refine ⟨⟨faultCause_of_step hstep, fun ⟨_, hcause⟩ => ?faults⟩, fun ht => ?code⟩
  case faults =>
    obtain ⟨hfaulted, -⟩ := hcause.effect hstep
    exact hfaulted
  case code =>
    obtain ⟨code, hcause⟩ := faultCause_of_step hstep ht
    obtain ⟨-, hcode, -⟩ := hcause.effect hstep
    exact hcode.trans hcause.code_eq

/-! ## What a fault leaves (R216) -/

theorem hostNew_ne_err (s t : State) (f : FaultLatch) : hostNew s ≠ .err f t := by
  rcases hostNew_cases s with ⟨-, hdo⟩ | ⟨-, hdo⟩ <;> simp [hdo]

/-- A host operation's error result is that of fault entry on the state before it (R209, R214). -/
theorem hostRaise_of_err {op : HostOp} {s t : State} {f : FaultLatch} (h : hostDo op s = .err f t) :
    ∃ code addr word, code ≠ .noFault ∧ hostRaise s code addr word = .err f t := by
  have hop : op ≠ .new := by rintro rfl; exact hostNew_ne_err s t f h
  rcases hostDo_cases hop s with hdo | ⟨-, code, addr, word, hcode, hdo⟩ | ⟨-, _, _, _, -, -, hdo⟩
  · exact HostOutcome.noConfusion (hdo.symm.trans h)
  · exact ⟨code, addr, word, hcode, hdo.symm.trans h⟩
  · exact HostOutcome.noConfusion (hdo.symm.trans h)

/-- Settles O20: a step's fault has one of four causes, whose effects are framed, and a host operation's is fault
entry alone. -/
theorem faultsArePrecise : Obligations.FaultsArePrecise := by
  refine ⟨fun s t _ hstep ht => ?ofStep, fun op s t f herr => ?ofHost⟩
  case ofStep =>
    obtain ⟨code, hcause⟩ := faultCause_of_step hstep ht
    obtain ⟨-, hcode, hpc, hframe⟩ := hcause.effect hstep
    refine ⟨hframe, hpc, ?_⟩
    rw [hcode]
    cases hcause <;> decide
  case ofHost =>
    obtain ⟨code, addr, word, hcode, hraise⟩ := hostRaise_of_err herr
    obtain ⟨u, heq, ⟨hfaulted, hlatched, -, -⟩, hpc, hframe⟩ := hostRaise_effect s code addr word
    cases heq.symm.trans hraise
    exact ⟨hframe, hpc, hfaulted, rfl, hlatched ▸ hcode⟩

/-! ## What leaves FAULTED and HALTED (R211, R223) -/

theorem after_eq_none_of_faulted {e : Event} {s : State} (hs : s.state = .faulted) (hne : e ≠ .host .new) :
    after e s = none := by
  rw [Option.eq_none_iff_forall_ne_some]
  intro t he
  cases after_effect he with
  | step hstep => exact RunState.noConfusion (hs.symm.trans (running_of_step hstep))
  | reset _ => exact hne rfl
  | startRun hready | hostWrite _ hready _ _ | hostFault _ hready _ =>
    exact ne_faulted_of_ready_or_halted hready hs

theorem hostDo_refused_of_not_acceptsWrites {op : HostOp} {s : State} (hop : op ≠ .new)
    (hacc : acceptsWrites s = false) : hostDo op s = .refused := by
  rcases hostDo_cases hop s with hdo | ⟨hacc', -⟩ | ⟨hacc', -⟩
  · exact hdo
  · exact Bool.noConfusion (hacc.symm.trans hacc')
  · exact Bool.noConfusion (hacc.symm.trans hacc')

theorem after_new {s : State} (hs : s.state ≠ .running) : after (.host .new) s = some State.reset := by
  rcases hostNew_cases s with ⟨hrun, -⟩ | ⟨-, hdo⟩
  · exact absurd hrun hs
  · exact after_host_of_ok (op := .new) hdo

/-- Settles O50: every event with an effect but reset happens in another run state. -/
theorem faultIsSticky : Obligations.FaultIsSticky := by
  intro s hs
  have hacc : acceptsWrites s = false := (acceptsWrites_eq_false_iff s).mpr (.inr hs)
  refine ⟨fun _ => after_eq_none_of_faulted hs, fun _ hop => hostDo_refused_of_not_acceptsWrites hop hacc,
    fun fuel => ?_, after_new (by rw [hs]; decide)⟩
  simp only [run, hs]

/-- Settles O52: of the events with an effect, a step does not happen in HALTED, and a host operation writes neither pc
nor, unless it faults, the run state. -/
theorem haltedIsLeftByRunOrReset : Obligations.HaltedIsLeftByRunOrReset := by
  intro e s t hs he
  cases after_effect he with
  | step hstep => exact RunState.noConfusion (hs.symm.trans (running_of_step hstep))
  | startRun _ => exact .inl ⟨rfl, rfl⟩
  | reset _ => exact .inr (.inl ⟨rfl, rfl⟩)
  | @hostWrite op _ _ _ _ hop _ _ _ => exact .inr (.inr ⟨op, hop, rfl, rfl, .inl hs⟩)
  | @hostFault op _ _ _ _ hop _ _ => exact .inr (.inr ⟨op, hop, rfl, rfl, .inr rfl⟩)

end Sys2Proof.Safety
end

/-! # Proofs: reset and hazards (70_reset_and_hazards.md) -/

section

namespace Sys2Proof.Machine

/-! ## Registers and slots after reset (R41) -/

@[simp] theorem reset_reg (r : Reg) : State.reset.reg r = 0#8 := Vector.getElem_replicate r.isLt

@[simp] theorem reset_slot {k : Nat} (hk : k < 16) : State.reset.stack[k]'hk = 0#16 :=
  Vector.getElem_replicate hk

end Sys2Proof.Machine

namespace Sys2Proof.Safety

open Sys2Proof.Machine

/-! ## Reset (R240) -/

theorem hostNew_of_ne_running {s : State} (hs : s.state ≠ .running) : hostNew s = .ok State.reset := by
  rcases hostNew_cases s with ⟨hrun, -⟩ | ⟨-, hdo⟩
  · exact absurd hrun hs
  · exact hdo

theorem hostNew_of_running {s : State} (hs : s.state = .running) : hostNew s = .refused := by
  rcases hostNew_cases s with ⟨-, hdo⟩ | ⟨hrun, -⟩
  · exact hdo
  · exact absurd hs hrun

/-- Settles O48: the run state alone decides whether reset is accepted, and memory at reset lists no byte. -/
theorem newResetsEverything : Obligations.NewResetsEverything :=
  ⟨fun _ => hostNew_of_ne_running, fun _ => hostNew_of_running, reset_reg, fun _ => rfl, fun k => reset_slot k.isLt,
    reset_pc, reset_wc, rfl, reset_state, rfl, rfl, rfl⟩

/-! ## Presetting a register (R203, R243) -/

/-- The bound `i < 16` of `set_register` as the greatest index it accepts, the form that `host_clauses` takes. -/
theorem hostDo_setRegister_cases (i : Nat) (v : Byte) (s : State) :
    (acceptsWrites s = false ∧ hostDo (.setRegister i v) s = .refused) ∨
      (acceptsWrites s = true ∧ 15 < i ∧ hostDo (.setRegister i v) s =
        hostRaise s .registerIndexOutOfRange (BitVec.ofNat 16 i) (v.zeroExtend 16)) ∨
      (acceptsWrites s = true ∧ i ≤ 15 ∧
        hostDo (.setRegister i v) s = .ok (s.setReg (BitVec.ofNat 4 i) v)) := by
  rcases hostSetRegister_cases i v s with hrefused | hfault | ⟨hacc, hlt, hdo⟩
  · exact .inl hrefused
  · exact .inr (.inl hfault)
  · exact .inr (.inr ⟨hacc, Nat.le_of_lt_succ hlt, hdo⟩)

/-- Settles O47: the latch holds the index and the value at 16 bits, and an index that is a register's number names
that register. -/
theorem setRegisterPresets : Obligations.SetRegisterPresets := by
  intro i v s
  obtain ⟨hrefused, hfault, hdone⟩ := host_clauses (hostDo_setRegister_cases i v s)
  refine ⟨hrefused, fun hs hi => ?beyond, fun r hs hr => ?within⟩
  case beyond =>
    obtain ⟨t, hdo, ⟨hfaulted, hcode, haddr, hword⟩, hpc, hframe⟩ := hfault hs hi
    have haddr' : t.fault.addr.toNat = i % 65536 := by rw [haddr, BitVec.toNat_ofNat]
    have hword' : t.fault.word.toNat = v.toNat := by
      rw [hword]; exact BitVec.toNat_setWidth_of_le (by decide)
    exact ⟨t, hdo, hfaulted, hcode, haddr', hword', hpc, hframe⟩
  case within =>
    have hdo := hdone hs (by omega)
    have hreg : BitVec.ofNat 4 i = r := by rw [← hr, BitVec.ofNat_toNat, BitVec.setWidth_eq]
    rw [hreg] at hdo
    exact ⟨_, hdo, reg_setReg_self s r v, onlyRegs_setReg s r v⟩

end Sys2Proof.Safety
end
